-- ==== Sys2Proof/Word.lean ====
section
/-! DEFINITION. The two widths the machine has: bytes and 16-bit words (spec/00_scope.md R6 and §7). -/

namespace Sys2Proof

/-- A byte: 8 bits (00_scope.md §7). -/
abbrev Byte := BitVec 8

/-- A word, the spec's 16-bit *pattern* (00_scope.md §7). -/
abbrev Word := BitVec 16

end Sys2Proof
end

