-- ==== Sys2Proof/Machine/Bits.lean ====
section
/-! DEFINITION. Patterns and values (00_scope.md §7): the maps between 16-bit patterns, bytes and integers. Two's
complement is the spec's item G1 (PRESUMED there from general knowledge; log 13). -/

namespace Sys2Proof

/-- `s16(p)`: the signed value of a pattern. -/
def s16 (p : Word) : Int := p.toInt

/-- `u16(v) = v mod 65536`: any integer to a pattern. -/
def u16 (v : Int) : Word := BitVec.ofInt 16 v

/-- `u8(v) = v mod 256`. -/
def u8 (v : Int) : Byte := BitVec.ofInt 8 v

/-- Bits 15:8 of a pattern. -/
def hiByte (p : Word) : Byte := p.extractLsb' 8 8

/-- Bits 7:0 of a pattern. -/
def loByte (p : Word) : Byte := p.extractLsb' 0 8

/-- `(h << 8) | l`: the pattern of two bytes, the first the more significant (20_memory.md R33, 30_encoding.md R73). -/
def bytesToWord (h l : Byte) : Word := (h.zeroExtend 16 <<< 8) ||| l.zeroExtend 16

/-- A result is representable: -32768..32767, the signed 16-bit range, whatever the destination's width (R90). -/
abbrev fitsS16 (t : Int) : Prop := -32768 ≤ t ∧ t ≤ 32767

end Sys2Proof
end

