-- ==== Sys2Proof/Syntax/Names.lean ====
section
/-! DEFINITION. The names instructions are built from: accumulators, the 12 register names, the operand kinds, the 19
instruction names and the five flags. Types only; every table over them is in Machine/Settings.lean. -/

namespace Sys2Proof

/-- The four accumulators (10_state.md R10). -/
inductive Acc where
  | A | B | C | D
  deriving DecidableEq, Repr

/-- The 12 register names an operand may use (R11). -/
inductive Reg where
  | A | AH | AL | B | BH | BL | C | CH | CL | D | DH | DL
  deriving DecidableEq, Repr

/-- A Constant-or-Register operand: a 16-bit pattern or a register name (R16). -/
inductive Operand where
  | constant (k : Word)
  | register (r : Reg)
  deriving DecidableEq, Repr

/-- The five flags, in the order R17 lists them. -/
inductive Flag where
  | overflow | zero | equal | greaterThan | lowerThan
  deriving DecidableEq, Repr

/-- The 19 instruction names of the closed set (30_encoding.md R54): what an opcode number stands for. -/
inductive Op where
  | load | sum | sub | mul | div | and | or | xor | shr | shl | cmp | not
  | jmp | jeq | jne | jgt | jlt | push | pop
  deriving DecidableEq, Repr

/-- The two widths of a register and of a memory access (R11, 20_memory.md R38). -/
inductive Width where
  | w8 | w16
  deriving DecidableEq, Repr

end Sys2Proof
end

