-- ==== Sys2Proof/Syntax.lean ====
section
/-! DEFINITION. The instruction values: the tagged union of 19 variants of 00_scope.md R1, with the operand shapes of
30_encoding.md R74. The rows of spec/opcode_table.json are the encodable operand forms of these 19 (log 9). -/

namespace Sys2Proof

/-- An instruction value. Operand A comes first, operand B second. The nine values with a constant in a one-byte
operand position (R61) execute like the others and have no encoding. -/
inductive Instr where
  /-- Load, 40_load.md R80: forms LD.RR, LD.CR, LD.RC, LD.CC. -/
  | load (a b : Operand)
  /-- Sum, 41_arithmetic.md R91. -/
  | sum (a : Operand) (r : Reg)
  /-- Sub, R92. -/
  | sub (a : Operand) (r : Reg)
  /-- Mul, R93. -/
  | mul (a : Operand) (r : Reg)
  /-- Div, R94: operand A is the dividend. -/
  | div (a : Operand) (r : Reg)
  /-- And, 42_logic_shift.md R100. -/
  | and (a : Operand) (r : Reg)
  /-- Or, R101. -/
  | or (a : Operand) (r : Reg)
  /-- Xor, R102. -/
  | xor (a : Operand) (r : Reg)
  /-- Shr, R105: operand A is the amount. -/
  | shr (a : Operand) (r : Reg)
  /-- Shl, R106. -/
  | shl (a : Operand) (r : Reg)
  /-- Cmp, 43_compare_jump.md R110. -/
  | cmp (a : Operand) (r : Reg)
  /-- Not, R103. -/
  | not (r : Reg)
  /-- Jmp, R112. -/
  | jmp (a : Operand)
  /-- Jeq, R113. -/
  | jeq (a : Operand)
  /-- Jne, R114. -/
  | jne (a : Operand)
  /-- Jgt, R115. -/
  | jgt (a : Operand)
  /-- Jlt, R116. -/
  | jlt (a : Operand)
  /-- Push, 44_stack.md R120. -/
  | push (a : Operand)
  /-- Pop, R121. -/
  | pop (r : Reg)
  deriving DecidableEq, Repr

end Sys2Proof
end

