-- ==== Sys2Proof/Machine/Reasons.lean ====
section
/-! DEFINITION. The typed reasons of 60_exceptions.md: the four decode errors, the two fatal faults of a running
machine, the halt reason, and the encoder's refusal. -/

namespace Sys2Proof

/-- The decode errors E1 to E4 (R132). Addresses are in the integers: an operand byte may be needed past 65535 (R65). -/
inductive DecodeError where
  /-- E1: bits 7:3 of the opcode byte `ob` at `addr` are no opcode number (30_encoding.md R63). -/
  | unknownOpcode (ob : Byte) (addr : Nat)
  /-- E2: the byte `c` at `addr`, in a register position, is no register code (R64). -/
  | invalidRegisterCode (c : Byte) (addr : Nat)
  /-- E3: `addr` is the first address needed that lies beyond memory (R65). -/
  | truncatedStream (addr : Nat)
  /-- E4: the opcode byte `ob` at `addr` has low bits its opcode never has (R66). -/
  | reservedForm (ob : Byte) (addr : Nat)
  deriving DecidableEq, Repr

/-- The fatal faults F1 and F2 (R134), raised by Execute and, F1 only, by the host's memory accessors. -/
inductive FatalFault where
  /-- F1: an access of `n` bytes at `addr` is not in bounds (20_memory.md R35). -/
  | outOfBounds (addr n : Nat)
  /-- F2: Load between registers of different widths (40_load.md R81). -/
  | loadWidthMismatch (rs rd : Reg)
  deriving DecidableEq, Repr

/-- What the halted machine holds as its halt reason (R137, R140). -/
inductive HaltReason where
  /-- The decode of a step failed (R133). -/
  | decode (e : DecodeError)
  /-- The execution of a step raised a fatal fault (R135). -/
  | fatal (f : FatalFault)
  deriving DecidableEq, Repr

/-- F3, `EncodeRefused(i)` (R61, R134): raised by the encoder only; it concerns no machine state. -/
structure EncodeRefused where
  /-- The instruction value that has no encoding. -/
  instr : Instr
  deriving DecidableEq, Repr

end Sys2Proof
end

