-- ==== Sys2Proof/Config.lean ====
section
/-! DEFINITION. What an implementation of the machine fixes: the launch parameters of 00_scope.md R5 and the types of
the four switches of 93_implementation_defined.md U1 and U14. The values in force are in Machine/Settings.lean. -/

namespace Sys2Proof

/-- The parameters the machine is constructed with (R5). The constraints of R5 are launch premises: nothing here
enforces them (`LaunchPremises` in Safety.lean states them, each by its name). -/
structure Launch where
  /-- MEM_SIZE, the number of bytes of memory. -/
  memSize : Nat
  /-- STACK_BASE, the start of the stack region and the reset value of the stack pointer. -/
  stackBase : Word
  /-- STACK_SIZE, the capacity of the stack region in bytes. -/
  stackSize : Word
  /-- IMAGE, the (address, byte) pairs the loader places before the first step. -/
  image : List (Nat × Byte)
  deriving DecidableEq, Repr

/-- Switch ALIAS_READ (decision D13, U14): how an 8-bit name is read as an integer. -/
inductive AliasRead where
  /-- 0..255, the default. -/
  | zeroExtend
  /-- -128..127, the alternative D13 names. -/
  | signExtend
  deriving DecidableEq, Repr

/-- Switch SUB_ORDER (D14, U14): which operand Sub subtracts from which. -/
inductive SubOrder where
  /-- A - B, the default. -/
  | aMinusB
  /-- B - A, the alternative D14 names. -/
  | bMinusA
  deriving DecidableEq, Repr

/-- Switch DIV_OVERFLOW (D15, U1): what Div does with -32768 divided by -1. -/
inductive DivOverflow where
  /-- Destination 0, OVERFLOW set: the default. -/
  | zeroAndFlag
  /-- Destination -32768, no flag: the other value of the switch (U1). -/
  | wrap
  deriving DecidableEq, Repr

/-- Switch LOAD_CONST_SRC (D11, U14): what a constant operand A of Load stands for. -/
inductive LoadConstSource where
  /-- The memory location at that address: the default. -/
  | address
  /-- The number itself: the alternative D11 names. -/
  | immediate
  deriving DecidableEq, Repr

end Sys2Proof
end

