-- ==== Sys2Proof/Machine/Settings.lean ====
section
/-! DEFINITION. The configuration tables 00_scope.md R7 asks for, one each, and the switch values in force. Every value
here is a decision of spec/92_eei_decisions.md; a correction is a one-line change. -/

namespace Sys2Proof

/-- OPNUM (30_encoding.md R54, decision D1): the opcode number of each instruction. Only Load = 1 is the source's. -/
def Op.number : Op → Nat
  | .load => 1 | .sum => 2 | .sub => 3 | .mul => 4 | .div => 5
  | .and => 6 | .or => 7 | .xor => 8 | .shr => 9 | .shl => 10
  | .cmp => 11 | .not => 12 | .jmp => 13 | .jeq => 14 | .jne => 15
  | .jgt => 16 | .jlt => 17 | .push => 18 | .pop => 19

/-- All 19 instruction names, in the order of R54. -/
def Op.all : List Op :=
  [.load, .sum, .sub, .mul, .div, .and, .or, .xor, .shr, .shl, .cmp, .not, .jmp, .jeq, .jne, .jgt, .jlt, .push, .pop]

/-- The register codes, `code(r)` (10_state.md R12). -/
def Reg.code : Reg → Byte
  | .A => 1 | .AH => 2 | .AL => 3
  | .B => 4 | .BH => 5 | .BL => 6
  | .C => 7 | .CH => 8 | .CL => 9
  | .D => 10 | .DH => 11 | .DL => 12

/-- All 12 register names, in code order (R11). -/
def Reg.all : List Reg :=
  [.A, .AH, .AL, .B, .BH, .BL, .C, .CH, .CL, .D, .DH, .DL]

/-- The bit of the flags byte that holds each flag (R17, decision D2). -/
def Flag.bit : Flag → Nat
  | .overflow => 0 | .zero => 1 | .equal => 2 | .greaterThan => 3 | .lowerThan => 4

/-- All five flags (R17). -/
def Flag.all : List Flag := [.overflow, .zero, .equal, .greaterThan, .lowerThan]

namespace Settings

/-- ALIAS_READ in force (D13). -/
def aliasRead : AliasRead := .zeroExtend

/-- SUB_ORDER in force (D14). -/
def subOrder : SubOrder := .aMinusB

/-- DIV_OVERFLOW in force (D15). -/
def divOverflow : DivOverflow := .zeroAndFlag

/-- LOAD_CONST_SRC in force (D11). -/
def loadConstSource : LoadConstSource := .address

/-- The reset value of the four accumulators (R27, decision D3; log 3). -/
def resetAcc : Word := 0x0000

/-- The reset value of the flags byte (R27, D3; log 3). -/
def resetFlags : Byte := 0x00

/-- The reset value of the instruction pointer, the entry point (R27, D3; log 3). -/
def resetPc : Word := 0x0000

/-- What a memory byte outside IMAGE holds after reset (R27, D5; log 4). -/
def memoryFill : Byte := 0x00

/-- The launch parameters of `State.reset`. DESIGN CHOICE (log 1): R5 leaves all four open. The memory is the largest the
16-bit addresses reach, the stack is 256 bytes near its top, nothing is loaded. -/
def launch : Launch :=
  { memSize := 65536, stackBase := 0xFE00, stackSize := 0x0100, image := [] }

end Settings

end Sys2Proof
end

