-- ==== Sys2Proof/Machine/Memory.lean ====
section
/-! DEFINITION. The memory array and its accessors (spec/20_memory.md). The bytes are a list of cells in one canonical
form: addresses strictly rising, below the size, no cell that holds what an unlisted address reads as. -/

namespace Sys2Proof.Machine

/-- The memory (R30): MEM_SIZE bytes at addresses 0 .. size - 1. The size is fixed at construction. -/
structure Memory where
  /-- MEM_SIZE (00_scope.md R5). -/
  size : Nat
  /-- The bytes that differ from the fill, by rising address. -/
  cells : List Host.Cell
  deriving DecidableEq, Repr

/-- The byte a list of cells holds at an address; an unlisted address reads as the fill (10_state.md R27; log 4). -/
def cellAt : List Host.Cell → Nat → Byte
  | [], _ => Settings.memoryFill
  | (k, b) :: rest, a => if k = a then b else cellAt rest a

/-- Put a byte at an address, keeping the canonical form: the fill value removes the cell. -/
def putCell : List Host.Cell → Nat → Byte → List Host.Cell
  | [], a, b => if b = Settings.memoryFill then [] else [(a, b)]
  | (k, v) :: rest, a, b =>
    if a < k then
      if b = Settings.memoryFill then (k, v) :: rest else (a, b) :: (k, v) :: rest
    else if a = k then
      if b = Settings.memoryFill then rest else (a, b) :: rest
    else (k, v) :: putCell rest a b

/-- Every cell lies at `lo` or above and below `hi`, addresses rise strictly, and no cell holds the fill. -/
def cellsOk (lo hi : Nat) : List Host.Cell → Bool
  | [] => true
  | (k, b) :: rest => decide (lo ≤ k) && decide (k < hi) && decide (b ≠ Settings.memoryFill) && cellsOk (k + 1) hi rest

/-- The canonical form of a memory. -/
def Memory.wf (m : Memory) : Bool := cellsOk 0 m.size m.cells

/-- The byte at an address, without the bounds check. -/
def Memory.byteAt (m : Memory) (a : Nat) : Byte := cellAt m.cells a

/-- Replace the byte at an address, without the bounds check. -/
def Memory.setByte (m : Memory) (a : Nat) (b : Byte) : Memory := { m with cells := putCell m.cells a b }

/-- An access of `n` bytes at `a` is in bounds: `a + n <= MEM_SIZE` in the integers, no wrap (R35, decision D23). -/
abbrev Memory.inBounds (m : Memory) (a n : Nat) : Prop := a + n ≤ m.size

/-- `read(addr)` (R31). -/
def Memory.read (m : Memory) (a : Nat) : Except FatalFault Byte :=
  if m.inBounds a 1 then .ok (m.byteAt a) else .error (.outOfBounds a 1)

/-- `write(addr, byte)` (R32). -/
def Memory.write (m : Memory) (a : Nat) (b : Byte) : Except FatalFault Memory :=
  if m.inBounds a 1 then .ok (m.setByte a b) else .error (.outOfBounds a 1)

/-- `read_16(addr)` (R33): the byte at the lower address is the more significant. -/
def Memory.read16 (m : Memory) (a : Nat) : Except FatalFault Word :=
  if m.inBounds a 2 then .ok (bytesToWord (m.byteAt a) (m.byteAt (a + 1))) else .error (.outOfBounds a 2)

/-- Store a pattern in two bytes, the more significant at the lower address, without the bounds check. -/
def Memory.setWord (m : Memory) (a : Nat) (p : Word) : Memory :=
  (m.setByte a (hiByte p)).setByte (a + 1) (loByte p)

/-- `write_16(addr, v)` (R34): the pattern of the signed argument; the check covers both bytes before either moves. -/
def Memory.write16 (m : Memory) (a : Nat) (v : Int) : Except FatalFault Memory :=
  if m.inBounds a 2 then .ok (m.setWord a (u16 v)) else .error (.outOfBounds a 2)

/-- The number of bytes of an access width (R38). -/
def accessBytes : Width → Nat
  | .w8 => 1
  | .w16 => 2

/-- `MemRead(addr, n)` (R37): an unsigned integer. -/
def Memory.load (m : Memory) (a : Nat) (w : Width) : Except FatalFault Nat :=
  match w with
  | .w8 => (m.read a).map BitVec.toNat
  | .w16 => (m.read16 a).map BitVec.toNat

/-- `MemWrite(addr, n, v)` (R37): the low `8n` bits of any integer. -/
def Memory.store (m : Memory) (a : Nat) (w : Width) (v : Int) : Except FatalFault Memory :=
  match w with
  | .w8 => m.write a (u8 v)
  | .w16 => m.write16 a v

/-- At most `n` bytes from address `a` on, ending where memory ends: what the decoder's fetch can see (R62, R65). -/
def Memory.window (m : Memory) (a : Nat) : Nat → List Byte
  | 0 => []
  | n + 1 => if a < m.size then m.byteAt a :: m.window (a + 1) n else []

/-- Memory of a given size holding only the fill. -/
def Memory.blank (size : Nat) : Memory := { size := size, cells := [] }

/-- Place (address, byte) pairs one after another; a pair outside memory is dropped (log 11). -/
def Memory.place (m : Memory) : List (Nat × Byte) → Memory
  | [] => m
  | (a, b) :: rest => (if a < m.size then m.setByte a b else m).place rest

end Sys2Proof.Machine
end

