-- ==== Sys2Proof/Machine/State.lean ====
section
/-! DEFINITION. The state of the machine (spec/10_state.md, 20_memory.md R30, 60_exceptions.md R140), the reasons a step
can end without a next state, and reset. -/

namespace Sys2Proof.Machine

/-- All the state of the machine. -/
structure State where
  /-- `W[A]`, the accumulator A (R10). -/
  wA : Word
  /-- `W[B]` (R10). -/
  wB : Word
  /-- `W[C]` (R10). -/
  wC : Word
  /-- `W[D]` (R10). -/
  wD : Word
  /-- The flags register (R17). -/
  flags : Byte
  /-- The instruction pointer (R20). -/
  pc : Word
  /-- The stack pointer (R23). -/
  sp : Word
  /-- The stack base (R23): written by no instruction. -/
  sbase : Word
  /-- The stack size in bytes (R23): written by no instruction. -/
  ssize : Word
  /-- The memory array (20_memory.md R30) and its size. -/
  mem : Memory
  /-- `halted`, with its halt reason when true (60_exceptions.md R137, R140). -/
  halt : Option HaltReason
  deriving DecidableEq, Repr

/-- Why the machine has no next state. -/
inductive Fault where
  /-- Raised by `step` alone, when the machine is already halted with this reason: no step is enabled (R140). Safe: the
  spec gives a halted machine no transition but reset. -/
  | halted (r : HaltReason)
  deriving DecidableEq, Repr

/-- Why an instruction has no meaning in the model. -/
inductive Refusal where
  /-- Raised by `exec` for an instruction not modelled yet, by its mnemonic; no arm uses it. Safe: nothing is claimed. -/
  | notModelled (mnemonic : String)
  deriving DecidableEq, Repr

/-- The machine right after reset, which is construction with the given parameters (R27, 70_reset_and_hazards.md R150). -/
def State.resetWith (p : Launch) : State :=
  { wA := Settings.resetAcc
    wB := Settings.resetAcc
    wC := Settings.resetAcc
    wD := Settings.resetAcc
    flags := Settings.resetFlags
    pc := Settings.resetPc
    sp := p.stackBase
    sbase := p.stackBase
    ssize := p.stackSize
    mem := (Memory.blank p.memSize).place p.image
    halt := none }

/-- Reset with the model's launch parameters (log 1). -/
def State.reset : State := State.resetWith Settings.launch

end Sys2Proof.Machine
end

