-- ==== Sys2Proof/Machine/Ops.lean ====
section
/-! DEFINITION. The named operations every meaning is built from: field updates, register accessors (10_state.md R13,
R14), the end of an Execute, and halting, the machine's stand-in for taking an exception (60_exceptions.md R140). There
is no return from it (R141). -/

namespace Sys2Proof.Machine

/-! ## Field updates -/

/-- `flags <- v`, the whole byte; used by `State.setFlag` only. -/
def State.setFlags (s : State) (v : Byte) : State := { s with flags := v }

/-- `pc <- target` (R20). -/
def State.setPc (s : State) (v : Word) : State := { s with pc := v }

/-- `sp <- v` (R23). -/
def State.setSp (s : State) (v : Word) : State := { s with sp := v }

/-- Replace the memory. -/
def State.setMem (s : State) (m : Memory) : State := { s with mem := m }

/-- `W[g]` (R10). -/
def State.acc (s : State) : Acc → Word
  | .A => s.wA
  | .B => s.wB
  | .C => s.wC
  | .D => s.wD

/-- `W[g] <- v` (R10). -/
def State.setAcc (s : State) (g : Acc) (v : Word) : State :=
  match g with
  | .A => { s with wA := v }
  | .B => { s with wB := v }
  | .C => { s with wC := v }
  | .D => { s with wD := v }

/-! ## Registers by name -/

/-- Which bits of its accumulator a register name stands for (R11). -/
inductive Part where
  /-- Bits 15:0. -/
  | whole
  /-- Bits 15:8. -/
  | high
  /-- Bits 7:0. -/
  | low
  deriving DecidableEq, Repr

/-- The storage column of R11's table. -/
def regAcc : Reg → Acc
  | .A => .A | .AH => .A | .AL => .A
  | .B => .B | .BH => .B | .BL => .B
  | .C => .C | .CH => .C | .CL => .C
  | .D => .D | .DH => .D | .DL => .D

/-- The bits column of R11's table. -/
def regPart : Reg → Part
  | .A => .whole | .AH => .high | .AL => .low
  | .B => .whole | .BH => .high | .BL => .low
  | .C => .whole | .CH => .high | .CL => .low
  | .D => .whole | .DH => .high | .DL => .low

/-- `width(r)` (R11). -/
def regWidth (r : Reg) : Width :=
  match regPart r with
  | .whole => .w16
  | .high => .w8
  | .low => .w8

/-- An alias byte as an integer, under the switch ALIAS_READ (R13, decision D13; log 7). -/
def aliasValue (mode : AliasRead) (b : Byte) : Int :=
  match mode with
  | .zeroExtend => b.toNat
  | .signExtend => b.toInt

/-- What a part of a pattern reads as (R13). -/
def partValue (p : Part) (w : Word) : Int :=
  match p with
  | .whole => s16 w
  | .high => aliasValue Settings.aliasRead (hiByte w)
  | .low => aliasValue Settings.aliasRead (loByte w)

/-- What a pattern becomes when a part of it is written with any integer (R14): the other byte is preserved. -/
def partWrite (p : Part) (w : Word) (v : Int) : Word :=
  match p with
  | .whole => u16 v
  | .high => (w &&& 0x00FF) ||| ((u8 v).zeroExtend 16 <<< 8)
  | .low => (w &&& 0xFF00) ||| (u8 v).zeroExtend 16

/-- `x[r]` (R13). -/
def State.readReg (s : State) (r : Reg) : Int := partValue (regPart r) (s.acc (regAcc r))

/-- `x[r] <- v`, for any integer `v` (R14). -/
def State.writeReg (s : State) (r : Reg) (v : Int) : State :=
  s.setAcc (regAcc r) (partWrite (regPart r) (s.acc (regAcc r)) v)

/-! ## Halting -/

/-- Enter the halted state with a reason (R140): nothing is saved, control goes nowhere, nothing else changes. The one
operation for a decode error at Step (R133) and a fatal fault at Step (R135). -/
def State.enterHalt (s : State) (r : HaltReason) : State := { s with halt := some r }

/-- The end of an Execute started in `s` (R135): its result, or, when it raised a fatal fault, `s` itself, halted. So a
faulting instruction writes nothing, and `pc` keeps the advance the step made before. -/
def finish (s : State) (r : Except FatalFault State) : Host.Outcome State Fault Refusal :=
  match r with
  | .ok t => .next t
  | .error f => .next (s.enterHalt (.fatal f))

end Sys2Proof.Machine
end

