-- ==== Sys2Proof/Machine/Flags.lean ====
section
/-! DEFINITION. The flags (10_state.md R17 to R19): reading one, setting one, and the three computations that set them. -/

namespace Sys2Proof.Machine

/-- Flag `F` is set (R17). -/
def State.flag (s : State) (f : Flag) : Bool := s.flags.getLsbD f.bit

/-- The mask of a flag in the flags byte (R17). -/
def flagMask (f : Flag) : Byte := 1#8 <<< f.bit

/-- `flags.F <- 1` (R18): no operation of an instruction clears a flag. -/
def State.setFlag (s : State) (f : Flag) : State := s.setFlags (s.flags ||| flagMask f)

/-- The range rule of Sum, Sub and Mul (41_arithmetic.md R90 to R93): the exact result if representable, else 0 and
OVERFLOW. -/
def State.writeRanged (s : State) (r : Reg) (t : Int) : State :=
  if fitsS16 t then s.writeReg r t else (s.writeReg r 0).setFlag .overflow

/-- The guard of Shr and Shl (42_logic_shift.md R104): above 15 the shift is not performed. -/
def State.writeGuarded (s : State) (r : Reg) (amount : Nat) (shifted : Word) : State :=
  if 15 < amount then (s.writeReg r 0).setFlag .overflow else s.writeReg r shifted.toNat

/-- The flag Cmp sets for operands `a` and `b` (43_compare_jump.md R110). -/
def compareFlag (a b : Int) : Flag :=
  if a = b then .equal else if b < a then .greaterThan else .lowerThan

end Sys2Proof.Machine
end

