-- ==== Sys2Proof/Machine/Operands.lean ====
section
/-! DEFINITION. Operand resolution (10_state.md R16) and the operand forms of Load (40_load.md R80). -/

namespace Sys2Proof.Machine

/-- `ResolveCR(c)` (R16): a constant is its signed value, a register what it reads as. Not used by Load for a
constant. -/
def State.resolve (s : State) (a : Operand) : Int :=
  match a with
  | .constant k => s16 k
  | .register r => s.readReg r

/-- `u16(ResolveCR(c))` (R16): the operand as a pattern, for an address, an amount or a bitwise operation. -/
def State.resolvePattern (s : State) (a : Operand) : Word := u16 (s.resolve a)

/-- What MemRead's unsigned result is worth in a Load of that width (R82): signed for 16 bits, the byte for 8. -/
def loadedValue (w : Width) (v : Nat) : Int :=
  match w with
  | .w8 => v
  | .w16 => s16 (BitVec.ofNat 16 v)

/-- The value a constant source `k` of Load stands for, under the switch LOAD_CONST_SRC (R80, decision D11; log 7): the
memory content at address `k`, read at the given width; or the number itself. -/
def State.constSource (s : State) (mode : LoadConstSource) (k : Word) (w : Width) : Except FatalFault Int :=
  match mode with
  | .address => (s.mem.load k.toNat w).map (loadedValue w)
  | .immediate => .ok (s16 k)

end Sys2Proof.Machine
end

