-- ==== Sys2Proof/Machine/Arith.lean ====
section
/-! DEFINITION. Sum, Sub, Mul, Div (spec/41_arithmetic.md): exact results in the integers, then the range rule. -/

namespace Sys2Proof.Machine

/-- The exact result of Sub under the switch SUB_ORDER (R92, decision D14; log 7). -/
def subExact (order : SubOrder) (a b : Int) : Int :=
  match order with
  | .aMinusB => a - b
  | .bMinusA => b - a

/-- Div when the quotient is out of range, -32768 / -1, under the switch DIV_OVERFLOW (R94, decision D15; log 7). -/
def State.divOverflow (s : State) (mode : DivOverflow) (r : Reg) : State :=
  match mode with
  | .zeroAndFlag => (s.writeReg r 0).setFlag .overflow
  | .wrap => s.writeReg r (-32768)

/-- Sum (R91). -/
def execSum (a : Operand) (r : Reg) (s : State) : Host.Outcome State Fault Refusal :=
  .next (s.writeRanged r (s.readReg r + s.resolve a))

/-- Sub (R92). -/
def execSub (a : Operand) (r : Reg) (s : State) : Host.Outcome State Fault Refusal :=
  .next (s.writeRanged r (subExact Settings.subOrder (s.resolve a) (s.readReg r)))

/-- Mul (R93). -/
def execMul (a : Operand) (r : Reg) (s : State) : Host.Outcome State Fault Refusal :=
  .next (s.writeRanged r (s.resolve a * s.readReg r))

/-- Div (R94): operand A divided by register B, rounded toward zero, into B. -/
def execDiv (a : Operand) (r : Reg) (s : State) : Host.Outcome State Fault Refusal :=
  .next
    (if s.readReg r = 0 then (s.writeReg r 0).setFlag .zero
     else if s.resolve a = -32768 ∧ s.readReg r = -1 then s.divOverflow Settings.divOverflow r
     else s.writeReg r (Int.tdiv (s.resolve a) (s.readReg r)))

end Sys2Proof.Machine
end

