-- ==== Sys2Proof/Machine/Control.lean ====
section
/-! DEFINITION. Cmp and the five jumps (spec/43_compare_jump.md). -/

namespace Sys2Proof.Machine

/-- A jump to the operand's pattern, taken or not (R111): not taken, `pc` keeps the advanced value. -/
def State.jumpIf (s : State) (taken : Bool) (a : Operand) : State :=
  if taken then s.setPc (s.resolvePattern a) else s

/-- Cmp (R110): sets one comparison flag and clears none. -/
def execCmp (a : Operand) (r : Reg) (s : State) : Host.Outcome State Fault Refusal :=
  .next (s.setFlag (compareFlag (s.resolve a) (s.readReg r)))

/-- Jmp (R112). -/
def execJmp (a : Operand) (s : State) : Host.Outcome State Fault Refusal := .next (s.jumpIf true a)

/-- Jeq (R113). -/
def execJeq (a : Operand) (s : State) : Host.Outcome State Fault Refusal := .next (s.jumpIf (s.flag .equal) a)

/-- Jne (R114). -/
def execJne (a : Operand) (s : State) : Host.Outcome State Fault Refusal := .next (s.jumpIf (!s.flag .equal) a)

/-- Jgt (R115). -/
def execJgt (a : Operand) (s : State) : Host.Outcome State Fault Refusal := .next (s.jumpIf (s.flag .greaterThan) a)

/-- Jlt (R116). -/
def execJlt (a : Operand) (s : State) : Host.Outcome State Fault Refusal := .next (s.jumpIf (s.flag .lowerThan) a)

end Sys2Proof.Machine
end

