-- ==== Sys2Proof/Machine/Load.lean ====
section
/-! DEFINITION. Load (spec/40_load.md): its four forms by operand kind. -/

namespace Sys2Proof.Machine

/-- Register to register (R81): both names must have the same width. -/
def State.loadRegReg (s : State) (rs rd : Reg) : Except FatalFault State :=
  if regWidth rs = regWidth rd then .ok (s.writeReg rd (s.readReg rs)) else .error (.loadWidthMismatch rs rd)

/-- Memory to register (R82): one read at the register's width. -/
def State.loadMemReg (s : State) (k : Word) (rd : Reg) : Except FatalFault State := do
  let v ← s.constSource Settings.loadConstSource k (regWidth rd)
  .ok (s.writeReg rd v)

/-- Register to memory (R83): one write at the register's width. -/
def State.loadRegMem (s : State) (rs : Reg) (k : Word) : Except FatalFault State := do
  let m ← s.mem.store k.toNat (regWidth rs) (s.readReg rs)
  .ok (s.setMem m)

/-- Memory to memory (R84): a 16-bit read, then a 16-bit write; the source address is checked first. -/
def State.loadMemMem (s : State) (ks kd : Word) : Except FatalFault State := do
  let v ← s.constSource Settings.loadConstSource ks .w16
  let m ← s.mem.store kd.toNat .w16 v
  .ok (s.setMem m)

/-- Load, by its operand kinds (R80). -/
def State.loadForm (s : State) (a b : Operand) : Except FatalFault State :=
  match a, b with
  | .register rs, .register rd => s.loadRegReg rs rd
  | .constant k, .register rd => s.loadMemReg k rd
  | .register rs, .constant k => s.loadRegMem rs k
  | .constant ks, .constant kd => s.loadMemMem ks kd

/-- Load (R80 to R85). -/
def execLoad (a b : Operand) (s : State) : Host.Outcome State Fault Refusal := finish s (s.loadForm a b)

end Sys2Proof.Machine
end

