-- ==== Sys2Proof/Machine/Logic.lean ====
section
/-! DEFINITION. And, Or, Xor, Not, Shr, Shl (spec/42_logic_shift.md): on 16-bit patterns. -/

namespace Sys2Proof.Machine

/-- `u16(x[r])` (R107, R104): a register as a pattern, an alias byte extended. -/
def State.readPattern (s : State) (r : Reg) : Word := u16 (s.readReg r)

/-- And (R100). -/
def execAnd (a : Operand) (r : Reg) (s : State) : Host.Outcome State Fault Refusal :=
  .next (s.writeReg r (s.resolvePattern a &&& s.readPattern r).toNat)

/-- Or (R101). -/
def execOr (a : Operand) (r : Reg) (s : State) : Host.Outcome State Fault Refusal :=
  .next (s.writeReg r (s.resolvePattern a ||| s.readPattern r).toNat)

/-- Xor (R102). -/
def execXor (a : Operand) (r : Reg) (s : State) : Host.Outcome State Fault Refusal :=
  .next (s.writeReg r (s.resolvePattern a ^^^ s.readPattern r).toNat)

/-- Not (R103). -/
def execNot (r : Reg) (s : State) : Host.Outcome State Fault Refusal :=
  .next (s.writeReg r (~~~ s.readPattern r).toNat)

/-- Shr (R105): logical, zeros enter from the left. -/
def execShr (a : Operand) (r : Reg) (s : State) : Host.Outcome State Fault Refusal :=
  .next (s.writeGuarded r (s.resolvePattern a).toNat (s.readPattern r >>> (s.resolvePattern a).toNat))

/-- Shl (R106): zeros enter from the right, bits past bit 15 are lost. -/
def execShl (a : Operand) (r : Reg) (s : State) : Host.Outcome State Fault Refusal :=
  .next (s.writeGuarded r (s.resolvePattern a).toNat (s.readPattern r <<< (s.resolvePattern a).toNat))

end Sys2Proof.Machine
end

