-- ==== Sys2Proof/Machine/Stack.lean ====
section
/-! DEFINITION. Push and Pop (spec/44_stack.md): the stack grows upward; a stack fault sets `sp` to the literal 0. -/

namespace Sys2Proof.Machine

/-- The stack is full: `u16(sp - sbase) = ssize`, exactly (R120, decision D24). -/
abbrev State.stackFull (s : State) : Prop := s.sp - s.sbase = s.ssize

/-- The stack is empty: `sp = sbase`, exactly (R121). -/
abbrev State.stackEmpty (s : State) : Prop := s.sp = s.sbase

/-- Both stack faults: `sp <- 0` and OVERFLOW (R120, R121). -/
def State.stackFault (s : State) : State := (s.setSp 0).setFlag .overflow

/-- The effect of Push on an integer (R120): 16 bits at `sp`, then `sp + 2` modulo 65536. -/
def State.pushValue (s : State) (v : Int) : Except FatalFault State :=
  if s.stackFull then .ok s.stackFault
  else do
    let m ← s.mem.store s.sp.toNat .w16 v
    .ok ((s.setMem m).setSp (s.sp + 2))

/-- The effect of Pop into a register (R121): `sp - 2` modulo 65536, then the 16 bits there. -/
def State.popInto (s : State) (r : Reg) : Except FatalFault State :=
  if s.stackEmpty then .ok s.stackFault
  else do
    let v ← s.mem.load (s.sp - 2).toNat .w16
    .ok ((s.setSp (s.sp - 2)).writeReg r (loadedValue .w16 v))

/-- Push (R120). -/
def execPush (a : Operand) (s : State) : Host.Outcome State Fault Refusal := finish s (s.pushValue (s.resolve a))

/-- Pop (R121). -/
def execPop (r : Reg) (s : State) : Host.Outcome State Fault Refusal := finish s (s.popInto r)

end Sys2Proof.Machine
end

