-- ==== Sys2Proof/Machine/Dispatch.lean ====
section
/-! DEFINITION. Execute (00_scope.md R9): one arm per constructor of Instr, each one direct call of its meaning. -/

namespace Sys2Proof.Machine

/-- `Execute(i)`, with `pc` already past the instruction (10_state.md R21). -/
def exec (i : Instr) (s : State) : Host.Outcome State Fault Refusal :=
  match i with
  | .load a b => Sys2Proof.Machine.execLoad a b s
  | .sum a r => Sys2Proof.Machine.execSum a r s
  | .sub a r => Sys2Proof.Machine.execSub a r s
  | .mul a r => Sys2Proof.Machine.execMul a r s
  | .div a r => Sys2Proof.Machine.execDiv a r s
  | .and a r => Sys2Proof.Machine.execAnd a r s
  | .or a r => Sys2Proof.Machine.execOr a r s
  | .xor a r => Sys2Proof.Machine.execXor a r s
  | .shr a r => Sys2Proof.Machine.execShr a r s
  | .shl a r => Sys2Proof.Machine.execShl a r s
  | .cmp a r => Sys2Proof.Machine.execCmp a r s
  | .not r => Sys2Proof.Machine.execNot r s
  | .jmp a => Sys2Proof.Machine.execJmp a s
  | .jeq a => Sys2Proof.Machine.execJeq a s
  | .jne a => Sys2Proof.Machine.execJne a s
  | .jgt a => Sys2Proof.Machine.execJgt a s
  | .jlt a => Sys2Proof.Machine.execJlt a s
  | .push a => Sys2Proof.Machine.execPush a s
  | .pop r => Sys2Proof.Machine.execPop r s

end Sys2Proof.Machine
end

