-- ==== Sys2Proof/WellFormed.lean ====
section
/-! DEFINITION. Which instruction values have an encoding (30_encoding.md R61): all but the nine constant forms. -/

namespace Sys2Proof

/-- Operand A is a register, the only kind a one-byte operand position can hold (R57, R59). -/
def Operand.isRegister : Operand → Bool
  | .constant _ => false
  | .register _ => true

/-- The instruction value has an encoding: the inputs the encoder refuses are exactly Shr, Shl, Cmp and Jmp, Jeq, Jne,
Jgt, Jlt, Push with a constant operand A (R61). -/
def Instr.wellFormed : Instr → Bool
  | .load _ _ => true
  | .sum _ _ => true
  | .sub _ _ => true
  | .mul _ _ => true
  | .div _ _ => true
  | .and _ _ => true
  | .or _ _ => true
  | .xor _ _ => true
  | .shr a _ => a.isRegister
  | .shl a _ => a.isRegister
  | .cmp a _ => a.isRegister
  | .not _ => true
  | .jmp a => a.isRegister
  | .jeq a => a.isRegister
  | .jne a => a.isRegister
  | .jgt a => a.isRegister
  | .jlt a => a.isRegister
  | .push a => a.isRegister
  | .pop _ => true

end Sys2Proof
end

