-- ==== Sys2Proof/Decode.lean ====
section
/-! DEFINITION. The codec (spec/30_encoding.md): the five formats, the decoder over a stream of bytes and, after it, the
encoder of the same tables. Both are pure functions. -/

namespace Sys2Proof

/-! ## Tables -/

/-- The five encoding formats (R55 to R59). -/
inductive Format where
  | LD | AL | SC | UB | UA
  deriving DecidableEq, Repr

/-- The format of each instruction (R55 to R59). -/
def Op.format : Op → Format
  | .load => .LD
  | .sum => .AL | .sub => .AL | .mul => .AL | .div => .AL | .and => .AL | .or => .AL | .xor => .AL
  | .shr => .SC | .shl => .SC | .cmp => .SC
  | .not => .UB | .pop => .UB
  | .jmp => .UA | .jeq => .UA | .jne => .UA | .jgt => .UA | .jlt => .UA | .push => .UA

/-- The pairs (fa, fb) of operand-kind bits the encoder emits in each format (R55 to R59, R66); the single-operand ones
are decision D17 (log 8). -/
def Format.kinds : Format → List (Bool × Bool)
  | .LD => [(true, true), (false, true), (true, false), (false, false)]
  | .AL => [(true, true), (false, true)]
  | .SC => [(true, true)]
  | .UB => [(false, true)]
  | .UA => [(true, false)]

/-- Bit 1 of an opcode byte: operand A is a register (R52). -/
def flagA (ob : Byte) : Bool := ob.getLsbD 1

/-- Bit 0 of an opcode byte: operand B is a register (R52). -/
def flagB (ob : Byte) : Bool := ob.getLsbD 0

/-- The instruction an opcode number stands for, if any (R54, R63). -/
def Op.ofNumber (n : Nat) : Option Op := Op.all.find? (fun op => op.number == n)

/-- The opcode number of an opcode byte names an instruction: bits 7:3 (R52). -/
def Op.ofByte (ob : Byte) : Option Op := Op.ofNumber (ob.toNat / 8)

/-- The low three bits of the opcode byte are a form of `op`: bit 2 clear and a legal pair of kinds (R66, R69). -/
def Op.hasForm (op : Op) (ob : Byte) : Bool :=
  !ob.getLsbD 2 && op.format.kinds.contains (flagA ob, flagB ob)

/-- `reg(c)`: the register a code stands for, defined for 1..12 only (10_state.md R12). -/
def Reg.ofCode (c : Byte) : Option Reg := Reg.all.find? (fun r => r.code == c)

/-! ## Decoder -/

/-- Where a decode stands: the address of the next byte and the bytes of memory from there on. The list ends where
memory ends. -/
structure Cursor where
  addr : Nat
  bytes : List Byte
  deriving DecidableEq, Repr

/-- `fetch(p)`: the next byte, or TruncatedStream with its address (R65). -/
def Cursor.fetch : Cursor → Except DecodeError (Byte × Cursor)
  | ⟨p, []⟩ => .error (.truncatedStream p)
  | ⟨p, b :: rest⟩ => .ok (b, ⟨p + 1, rest⟩)

/-- `getreg()`: one register-code byte (R62, R64). -/
def Cursor.getReg (c : Cursor) : Except DecodeError (Reg × Cursor) := do
  let (b, c') ← c.fetch
  match Reg.ofCode b with
  | none => .error (.invalidRegisterCode b c.addr)
  | some r => .ok (r, c')

/-- `getimm()`: two bytes, big-endian (R62, R73). -/
def Cursor.getImm (c : Cursor) : Except DecodeError (Word × Cursor) := do
  let (h, c') ← c.fetch
  let (l, c'') ← c'.fetch
  .ok (bytesToWord h l, c'')

/-- An operand of shape CR: a register if its kind bit is set, else an immediate (R62). -/
def Cursor.getOperand (isReg : Bool) (c : Cursor) : Except DecodeError (Operand × Cursor) :=
  if isReg then do
    let (r, c') ← c.getReg
    .ok (.register r, c')
  else do
    let (k, c') ← c.getImm
    .ok (.constant k, c')

/-- Both operands of shape CR: Load only (R62). -/
def Cursor.twoOperands (mk : Operand → Operand → Instr) (fa fb : Bool) (c : Cursor) :
    Except DecodeError (Instr × Cursor) := do
  let (a, c') ← c.getOperand fa
  let (b, c'') ← c'.getOperand fb
  .ok (mk a b, c'')

/-- Operand A of shape CR, operand B a bare register: formats AL and SC (R62). -/
def Cursor.operandReg (mk : Operand → Reg → Instr) (fa : Bool) (c : Cursor) :
    Except DecodeError (Instr × Cursor) := do
  let (a, c') ← c.getOperand fa
  let (r, c'') ← c'.getReg
  .ok (mk a r, c'')

/-- The sole operand, in column A: format UA (R59). -/
def Cursor.soleOperand (mk : Operand → Instr) (fa : Bool) (c : Cursor) : Except DecodeError (Instr × Cursor) := do
  let (a, c') ← c.getOperand fa
  .ok (mk a, c')

/-- The sole operand, in column B: format UB (R58). -/
def Cursor.soleReg (mk : Reg → Instr) (c : Cursor) : Except DecodeError (Instr × Cursor) := do
  let (r, c') ← c.getReg
  .ok (mk r, c')

/-- The operands of a legal opcode byte, and the instruction built from them (R62). -/
def decodeOperands (op : Op) (fa fb : Bool) (c : Cursor) : Except DecodeError (Instr × Cursor) :=
  match op with
  | .load => c.twoOperands .load fa fb
  | .sum => c.operandReg .sum fa
  | .sub => c.operandReg .sub fa
  | .mul => c.operandReg .mul fa
  | .div => c.operandReg .div fa
  | .and => c.operandReg .and fa
  | .or => c.operandReg .or fa
  | .xor => c.operandReg .xor fa
  | .shr => c.operandReg .shr fa
  | .shl => c.operandReg .shl fa
  | .cmp => c.operandReg .cmp fa
  | .not => c.soleReg .not
  | .jmp => c.soleOperand .jmp fa
  | .jeq => c.soleOperand .jeq fa
  | .jne => c.soleOperand .jne fa
  | .jgt => c.soleOperand .jgt fa
  | .jlt => c.soleOperand .jlt fa
  | .push => c.soleOperand .push fa
  | .pop => c.soleReg .pop

/-- Decode (R62): the instruction whose stream form starts at address `off`, where `bytes` are the bytes of memory from
`off` to its end, and the number of bytes consumed; or the first error in the order of R67. -/
def decodeStream (off : Nat) (bytes : List Byte) : Except DecodeError (Instr × Nat) := do
  let (ob, c) ← Cursor.fetch ⟨off, bytes⟩
  match Op.ofByte ob with
  | none => .error (.unknownOpcode ob off)
  | some op =>
    if op.hasForm ob then do
      let (i, c') ← decodeOperands op (flagA ob) (flagB ob) c
      .ok (i, c'.addr - off)
    else .error (.reservedForm ob off)

/-- The longest stream form: 5 bytes (R50, R70). -/
def maxStreamBytes : Nat := 5

/-- The length of a form (R55 to R59, R70): one byte, one more per register operand, two more per immediate operand. -/
def Format.bytes (f : Format) (fa fb : Bool) : Nat :=
  match f with
  | .LD => 1 + (if fa then 1 else 2) + (if fb then 1 else 2)
  | .AL => 1 + (if fa then 1 else 2) + 1
  | .SC => 3
  | .UB => 2
  | .UA => 2

/-- The length of an instruction from its opcode byte alone (R70); 0 for a byte that is no opcode byte of R69. -/
def lengthOfOpcodeByte (ob : Byte) : Nat :=
  match Op.ofByte ob with
  | none => 0
  | some op =>
    if op.hasForm ob then op.format.bytes (flagA ob) (flagB ob) else 0

/-! ## Encoder -/

/-- The name of an instruction value. -/
def Instr.op : Instr → Op
  | .load _ _ => .load | .sum _ _ => .sum | .sub _ _ => .sub | .mul _ _ => .mul | .div _ _ => .div
  | .and _ _ => .and | .or _ _ => .or | .xor _ _ => .xor | .shr _ _ => .shr | .shl _ _ => .shl
  | .cmp _ _ => .cmp | .not _ => .not | .jmp _ => .jmp | .jeq _ => .jeq | .jne _ => .jne
  | .jgt _ => .jgt | .jlt _ => .jlt | .push _ => .push | .pop _ => .pop

/-- `fa`: operand A is present and is a register (R52). -/
def Instr.fa : Instr → Bool
  | .load a _ => a.isRegister
  | .sum a _ => a.isRegister | .sub a _ => a.isRegister | .mul a _ => a.isRegister | .div a _ => a.isRegister
  | .and a _ => a.isRegister | .or a _ => a.isRegister | .xor a _ => a.isRegister
  | .shr a _ => a.isRegister | .shl a _ => a.isRegister | .cmp a _ => a.isRegister
  | .not _ => false | .pop _ => false
  | .jmp a => a.isRegister | .jeq a => a.isRegister | .jne a => a.isRegister
  | .jgt a => a.isRegister | .jlt a => a.isRegister | .push a => a.isRegister

/-- `fb`: operand B is present and is a register (R52). -/
def Instr.fb : Instr → Bool
  | .load _ b => b.isRegister
  | .sum _ _ => true | .sub _ _ => true | .mul _ _ => true | .div _ _ => true
  | .and _ _ => true | .or _ _ => true | .xor _ _ => true
  | .shr _ _ => true | .shl _ _ => true | .cmp _ _ => true
  | .not _ => true | .pop _ => true
  | .jmp _ => false | .jeq _ => false | .jne _ => false
  | .jgt _ => false | .jlt _ => false | .push _ => false

/-- `payload`: a register is its code, a constant its two bytes, high byte first (R60, R73). -/
def Operand.payload : Operand → List Byte
  | .constant k => [hiByte k, loByte k]
  | .register r => [r.code]

/-- The operand bytes: operand A, then operand B, packed without padding (R53, R60). -/
def Instr.payload : Instr → List Byte
  | .load a b => a.payload ++ b.payload
  | .sum a r => a.payload ++ [r.code]
  | .sub a r => a.payload ++ [r.code]
  | .mul a r => a.payload ++ [r.code]
  | .div a r => a.payload ++ [r.code]
  | .and a r => a.payload ++ [r.code]
  | .or a r => a.payload ++ [r.code]
  | .xor a r => a.payload ++ [r.code]
  | .shr a r => a.payload ++ [r.code]
  | .shl a r => a.payload ++ [r.code]
  | .cmp a r => a.payload ++ [r.code]
  | .not r => [r.code]
  | .jmp a => a.payload
  | .jeq a => a.payload
  | .jne a => a.payload
  | .jgt a => a.payload
  | .jlt a => a.payload
  | .push a => a.payload
  | .pop r => [r.code]

/-- The opcode byte `(op << 3) | (fa << 1) | fb` (R52, R60). -/
def opcodeByte (op : Op) (fa fb : Bool) : Byte :=
  BitVec.ofNat 8 (op.number * 8 + fa.toNat * 2 + fb.toNat)

/-- The stream form of an instruction (R50, R60): the bytes that stand in memory; refused for a value that has no form
(R61). -/
def encodeStream (i : Instr) : Except EncodeRefused (List Byte) :=
  if i.op.format.kinds.contains (i.fa, i.fb) then
    .ok (opcodeByte i.op i.fa i.fb :: i.payload)
  else .error ⟨i⟩

/-- Encode (R60): the 6-byte slot, its length in bits first, zeros after the stream form (R50, R51). -/
def encode (i : Instr) : Except EncodeRefused (List Byte) :=
  match encodeStream i with
  | .error e => .error e
  | .ok stream =>
    .ok (BitVec.ofNat 8 (8 * stream.length) :: stream ++ List.replicate (maxStreamBytes - stream.length) 0)

/-! ## The opcode table's words -/

/-- The bytes of an instruction numbered as spec/opcode_table.json numbers its bits: bits 7:0 the opcode byte, bits 15:8
the next byte, and so on; every bit from `nbits` up is 0. -/
def bytesOfTableWord (nbits w : Nat) : List Byte :=
  (List.range maxStreamBytes).map (fun k => BitVec.ofNat 8 (w % 2 ^ nbits / 2 ^ (8 * k)))

/-- The instruction the decoder reads from such a word standing at address 0 (log 12). -/
def decodeTableWord (nbits w : Nat) : Option Instr :=
  match decodeStream 0 (bytesOfTableWord nbits w) with
  | .ok (i, _) => some i
  | .error _ => none

end Sys2Proof
end

