-- ==== Sys2Proof/Machine/Fetch.lean ====
section
/-! DEFINITION. Fetching (10_state.md R21, 30_encoding.md R62): Decode over the machine's memory, the advance of `pc`,
and where the next instruction is fetched from. -/

namespace Sys2Proof.Machine

/-- `Decode(off)` over a memory (R62): the decoder sees at most 5 bytes from `off`, ending where memory ends. -/
def decodeAt (m : Memory) (off : Nat) : Except DecodeError (Instr × Nat) :=
  decodeStream off (m.window off maxStreamBytes)

/-- `pc <- u16(pc + n)` (R21, R22). -/
def State.advance (s : State) (n : Nat) : State := s.setPc (s.pc + BitVec.ofNat 16 n)

/-- Place bytes at consecutive addresses from `a` on, as far as memory reaches. -/
def Memory.placeBytes (m : Memory) (a : Nat) : List Byte → Memory
  | [] => m
  | b :: rest => (if a < m.size then m.setByte a b else m).placeBytes (a + 1) rest

/-- Put an instruction's bytes where the next step fetches, in a machine that may step (log 12). -/
def State.placeNext (s : State) (bytes : List Byte) : State :=
  { s.setMem (s.mem.placeBytes s.pc.toNat bytes) with halt := none }

end Sys2Proof.Machine
end

