-- ==== Sys2Proof/Machine/Step.lean ====
section
/-! DEFINITION. The instruction cycle (10_state.md R21). -/

namespace Sys2Proof.Machine

/-- Step (R21): decode at `pc`, advance `pc` by the bytes consumed, execute. A decode error halts with nothing written
(60_exceptions.md R133); a halted machine has no step (R140). -/
def step (s : State) : Host.Outcome State Fault Refusal :=
  match s.halt with
  | some r => .fault (.halted r)
  | none =>
    match decodeAt s.mem s.pc.toNat with
    | .error e => .next (s.enterHalt (.decode e))
    | .ok (i, n) => exec i (s.advance n)

/-- The state with an instruction of the opcode table, zero above its `nbits` bits, standing where `step` fetches next
(log 12). -/
def State.withFetchWord (s : State) (nbits w : Nat) : State := s.placeNext (bytesOfTableWord nbits w)

end Sys2Proof.Machine
end

