-- ==== Sys2Proof/Machine/Written.lean ====
section
/-! DEFINITION. The written form of instructions (30_encoding.md R74, decision D26): its grammar over tokens. Splitting
text into tokens is an assembler's business and out of scope (00_scope.md R4 a; log 15). -/

namespace Sys2Proof

/-- The tokens of R74's grammar: an instruction name, the two operand words, a register name, a number, punctuation. -/
inductive Token where
  | op (o : Op)
  | constantWord
  | registerWord
  | reg (r : Reg)
  | number (n : Int)
  | leftParen
  | rightParen
  | comma
  deriving DecidableEq, Repr

/-- The pattern a number denotes, for -32768 <= n <= 65535 (R74). -/
def numberPattern (n : Int) : Option Word := if -32768 ≤ n ∧ n ≤ 65535 then some (u16 n) else none

/-- `cr ::= 'Constant' '(' number ')' | 'Register' '(' reg ')'` (R74). -/
def parseOperand : List Token → Option (Operand × List Token)
  | .constantWord :: .leftParen :: .number n :: .rightParen :: rest =>
    (numberPattern n).map (fun k => (.constant k, rest))
  | .registerWord :: .leftParen :: .reg r :: .rightParen :: rest => some (.register r, rest)
  | _ => none

/-- `'(' cr ',' cr ')'`: Load. -/
def parseTwoOperands (mk : Operand → Operand → Instr) : List Token → Option Instr
  | .leftParen :: rest =>
    match parseOperand rest with
    | some (a, .comma :: rest') =>
      match parseOperand rest' with
      | some (b, [.rightParen]) => some (mk a b)
      | _ => none
    | _ => none
  | _ => none

/-- `'(' cr ',' reg ')'`: the ten instructions of shape (CR, Register). -/
def parseOperandReg (mk : Operand → Reg → Instr) : List Token → Option Instr
  | .leftParen :: rest =>
    match parseOperand rest with
    | some (a, [.comma, .reg r, .rightParen]) => some (mk a r)
    | _ => none
  | _ => none

/-- `'(' reg ')'`: Not and Pop. -/
def parseSoleReg (mk : Reg → Instr) : List Token → Option Instr
  | [.leftParen, .reg r, .rightParen] => some (mk r)
  | _ => none

/-- `'(' cr ')'`: the jumps and Push. -/
def parseSoleOperand (mk : Operand → Instr) : List Token → Option Instr
  | .leftParen :: rest =>
    match parseOperand rest with
    | some (a, [.rightParen]) => some (mk a)
    | _ => none
  | _ => none

/-- The instruction a written form stands for (R74). -/
def parseInstr : List Token → Option Instr
  | .op o :: rest =>
    match o with
    | .load => parseTwoOperands .load rest
    | .sum => parseOperandReg .sum rest
    | .sub => parseOperandReg .sub rest
    | .mul => parseOperandReg .mul rest
    | .div => parseOperandReg .div rest
    | .and => parseOperandReg .and rest
    | .or => parseOperandReg .or rest
    | .xor => parseOperandReg .xor rest
    | .shr => parseOperandReg .shr rest
    | .shl => parseOperandReg .shl rest
    | .cmp => parseOperandReg .cmp rest
    | .not => parseSoleReg .not rest
    | .jmp => parseSoleOperand .jmp rest
    | .jeq => parseSoleOperand .jeq rest
    | .jne => parseSoleOperand .jne rest
    | .jgt => parseSoleOperand .jgt rest
    | .jlt => parseSoleOperand .jlt rest
    | .push => parseSoleOperand .push rest
    | .pop => parseSoleReg .pop rest
  | _ => none

/-- An operand, written; a constant as its unsigned pattern. -/
def writeOperand : Operand → List Token
  | .constant k => [.constantWord, .leftParen, .number k.toNat, .rightParen]
  | .register r => [.registerWord, .leftParen, .reg r, .rightParen]

/-- `Name(cr, reg)`. -/
def writeOperandReg (o : Op) (a : Operand) (r : Reg) : List Token :=
  .op o :: .leftParen :: writeOperand a ++ [.comma, .reg r, .rightParen]

/-- `Name(cr)`. -/
def writeSoleOperand (o : Op) (a : Operand) : List Token := .op o :: .leftParen :: writeOperand a ++ [.rightParen]

/-- The written form of an instruction value (R74). -/
def writeInstr : Instr → List Token
  | .load a b => .op .load :: .leftParen :: writeOperand a ++ .comma :: writeOperand b ++ [.rightParen]
  | .sum a r => writeOperandReg .sum a r
  | .sub a r => writeOperandReg .sub a r
  | .mul a r => writeOperandReg .mul a r
  | .div a r => writeOperandReg .div a r
  | .and a r => writeOperandReg .and a r
  | .or a r => writeOperandReg .or a r
  | .xor a r => writeOperandReg .xor a r
  | .shr a r => writeOperandReg .shr a r
  | .shl a r => writeOperandReg .shl a r
  | .cmp a r => writeOperandReg .cmp a r
  | .not r => [.op .not, .leftParen, .reg r, .rightParen]
  | .jmp a => writeSoleOperand .jmp a
  | .jeq a => writeSoleOperand .jeq a
  | .jne a => writeSoleOperand .jne a
  | .jgt a => writeSoleOperand .jgt a
  | .jlt a => writeSoleOperand .jlt a
  | .push a => writeSoleOperand .push a
  | .pop r => [.op .pop, .leftParen, .reg r, .rightParen]

/-- The spelling of an instruction name: the variant names of the source's §3 (R74). -/
def opText : Op → String
  | .load => "Load" | .sum => "Sum" | .sub => "Sub" | .mul => "Mul" | .div => "Div" | .and => "And" | .or => "Or"
  | .xor => "Xor" | .shr => "Shr" | .shl => "Shl" | .cmp => "Cmp" | .not => "Not" | .jmp => "Jmp" | .jeq => "Jeq"
  | .jne => "Jne" | .jgt => "Jgt" | .jlt => "Jlt" | .push => "Push" | .pop => "Pop"

/-- The spelling of a register name (R11, R74). -/
def regText : Reg → String
  | .A => "A" | .AH => "AH" | .AL => "AL" | .B => "B" | .BH => "BH" | .BL => "BL"
  | .C => "C" | .CH => "CH" | .CL => "CL" | .D => "D" | .DH => "DH" | .DL => "DL"

/-- The spelling of a token; a number in decimal. -/
def Token.text : Token → String
  | .op o => opText o
  | .constantWord => "Constant"
  | .registerWord => "Register"
  | .reg r => regText r
  | .number n => toString n
  | .leftParen => "("
  | .rightParen => ")"
  | .comma => ", "

end Sys2Proof
end

