-- ==== Sys2Proof/Machine/HostAccess.lean ====
section
/-! DEFINITION. What the host may do between two steps (10_state.md R28, decision D29): the register accessors, the memory
accessors and the stack operations. Reading is the accessors themselves (`readReg`, `Memory.read`, `Memory.read16`). -/

namespace Sys2Proof.Machine

/-- The writing moves of the host (R28). None writes the flags byte, `pc`, `sbase`, `ssize` or `halted` directly (D29). -/
inductive HostMove where
  /-- The register write accessor (R14). -/
  | writeReg (r : Reg) (v : Int)
  /-- `write` (20_memory.md R32). -/
  | writeByte (a : Nat) (b : Byte)
  /-- `write_16` (R34). -/
  | writeWord (a : Nat) (v : Int)
  /-- The effect of Push (44_stack.md R120). -/
  | push (v : Int)
  /-- The effect of Pop (R121). -/
  | pop (r : Reg)
  deriving DecidableEq, Repr

/-- A host move: the new state, or the fatal fault of the accessor, with nothing changed (R134; log 14). DESIGN CHOICE
(log 14): it does not look at `halt`, so the host may also write a halted machine. R28 says only 'between two steps' and
60_exceptions.md R141 only that the host may inspect after a halt; no move clears `halt`, so none resumes the machine. -/
def hostApply (h : HostMove) (s : State) : Except FatalFault State :=
  match h with
  | .writeReg r v => .ok (s.writeReg r v)
  | .writeByte a b => (s.mem.write a b).map s.setMem
  | .writeWord a v => (s.mem.write16 a v).map s.setMem
  | .push v => s.pushValue v
  | .pop r => s.popInto r

end Sys2Proof.Machine
end

