-- ==== Sys2Proof/Safety.lean ====
section
/-! DEFINITION. The terms claims are stated in: the launch premises (00_scope.md R5), the machine's invariant, the end
of a run (60_exceptions.md R145), and what it means that an instruction leaves something unchanged. -/

namespace Sys2Proof.Machine

/-! ## Launch premises (R5, 70_reset_and_hazards.md R152): the hardware checks none of them -/

/-- `1 <= MEM_SIZE <= 65536` (R5, decision D6). -/
abbrev launchSizeOk (p : Launch) : Prop := 1 ≤ p.memSize ∧ p.memSize ≤ 65536

/-- `STACK_BASE + STACK_SIZE <= MEM_SIZE`, in the integers (R5, D7). -/
abbrev launchStackFits (p : Launch) : Prop := p.stackBase.toNat + p.stackSize.toNat ≤ p.memSize

/-- STACK_SIZE is even (R5, D7). -/
abbrev launchStackEven (p : Launch) : Prop := p.stackSize.toNat % 2 = 0

/-- Every address of IMAGE is below MEM_SIZE (R5). -/
abbrev launchImageFits (p : Launch) : Prop := ∀ c ∈ p.image, c.1 < p.memSize

/-- Address `a` lies in the stack region, `STACK_BASE` to `STACK_BASE + STACK_SIZE - 1` (10_state.md R23). -/
abbrev launchInStack (p : Launch) (a : Nat) : Prop := p.stackBase.toNat ≤ a ∧ a < p.stackBase.toNat + p.stackSize.toNat

/-- The stack region does not overlap the program or its data (R152 c, D7): no address of IMAGE, and none of the further
addresses `data` the program keeps data at, lies in it. -/
abbrev launchStackApart (p : Launch) (data : List Nat) : Prop :=
  ∀ a ∈ p.image.map Prod.fst ++ data, ¬ launchInStack p a

/-- All launch premises together (R5, R152 a to c), for a program whose data outside IMAGE stands at `data`. -/
structure LaunchPremises (p : Launch) (data : List Nat) : Prop where
  size : launchSizeOk p
  stackFits : launchStackFits p
  stackEven : launchStackEven p
  stackApart : launchStackApart p data
  imageFits : launchImageFits p

/-! ## Invariants -/

/-- What every step keeps: the memory is in its canonical form, its size is one R5 allows, and bits 7:5 of the flags
register, never set and read as 0, are 0 (10_state.md R17). -/
structure State.Inv (s : State) : Prop where
  memory : s.mem.wf = true
  size : 1 ≤ s.mem.size ∧ s.mem.size ≤ 65536
  reserved : s.flags.extractLsb' 5 3 = 0#3

/-- The stack invariant `stack base <= stack pointer <= stack base + stack size`, in the integers (R24), with the distance
from the base even, as the premise of an even STACK_SIZE makes it. -/
structure State.StackInv (s : State) : Prop where
  above : s.sbase.toNat ≤ s.sp.toNat
  below : s.sp.toNat ≤ s.sbase.toNat + s.ssize.toNat
  even : (s.sp.toNat - s.sbase.toNat) % 2 = 0

/-- The stack region lies in memory and has an even size: the launch premises R152 a and b, read off a state (R5). -/
structure State.StackGeometry (s : State) : Prop where
  fits : s.sbase.toNat + s.ssize.toNat ≤ s.mem.size
  even : s.ssize.toNat % 2 = 0
  small : s.mem.size ≤ 65536

/-- Premise R152 c, read off a state: none of the given addresses, those of the program and its data, lies in the stack
region (R23). -/
def State.StackApart (s : State) (program : List Nat) : Prop :=
  ∀ a ∈ program, ¬ (s.sbase.toNat ≤ a ∧ a < s.sbase.toNat + s.ssize.toNat)

/-! ## The end of a run (R145) -/

/-- The run has ended normally: halted by a zero byte where an opcode byte was expected. -/
def State.endedNormally (s : State) : Bool :=
  match s.halt with
  | some (.decode (.unknownOpcode ob _)) => ob == 0
  | _ => false

/-- The run has gone wrong: halted for any other reason. -/
def State.wentWrong (s : State) : Bool := s.halt.isSome && !s.endedNormally

/-! ## What a register reads as, and what stays unchanged -/

/-- What a name of width `w` reads as after any integer is written to it (R13, R14). -/
def storedValue (w : Width) (v : Int) : Int :=
  match w with
  | .w16 => s16 (u16 v)
  | .w8 => v % 256

/-- Two register names share storage (R11): writing one can change what the other reads as. -/
def Reg.overlaps (q r : Reg) : Bool :=
  regAcc q == regAcc r && (regPart q == regPart r || regPart q == .whole || regPart r == .whole)

/-- Every register name reads as before. -/
def SameRegs (s t : State) : Prop := ∀ q : Reg, t.readReg q = s.readReg q

/-- Every register name that shares no storage with `r` reads as before. -/
def SameRegsBut (r : Reg) (s t : State) : Prop := ∀ q : Reg, Reg.overlaps q r = false → t.readReg q = s.readReg q

/-- The flags register is as before, all eight bits. -/
def SameFlags (s t : State) : Prop := t.flags = s.flags

/-- Bits 7:5 of the flags register are as before. -/
def SameReserved (s t : State) : Prop := t.flags.extractLsb' 5 3 = s.flags.extractLsb' 5 3

/-- Flag `f` is set if `p` holds and as before otherwise; every other flag, and bits 7:5, are as before. -/
def FlagSetIff (f : Flag) (p : Prop) (s t : State) : Prop :=
  (t.flag f = true ↔ s.flag f = true ∨ p) ∧ (∀ g : Flag, g ≠ f → t.flag g = s.flag g) ∧ SameReserved s t

/-- Every byte of memory reads as before, and the memory has its size. -/
def SameMemory (s t : State) : Prop := t.mem.size = s.mem.size ∧ ∀ x : Nat, t.mem.byteAt x = s.mem.byteAt x

/-- Every byte of memory outside the `n` bytes from address `a` on reads as before, and the memory has its size. -/
def SameMemoryBut (a n : Nat) (s t : State) : Prop :=
  t.mem.size = s.mem.size ∧ ∀ x : Nat, x < a ∨ a + n ≤ x → t.mem.byteAt x = s.mem.byteAt x

/-- The stack base, the stack size and the halted state are as before. -/
def SameFixed (s t : State) : Prop := t.sbase = s.sbase ∧ t.ssize = s.ssize ∧ t.halt = s.halt

/-- The instruction pointer, the stack pointer and what `SameFixed` names are as before. -/
def SameControl (s t : State) : Prop := t.pc = s.pc ∧ t.sp = s.sp ∧ SameFixed s t

/-- Every register name, flag and byte, the stack pointer and what `SameFixed` names are as before: only `pc` may differ. -/
def SameAllButPc (s t : State) : Prop :=
  SameRegs s t ∧ SameFlags s t ∧ SameMemory s t ∧ t.sp = s.sp ∧ SameFixed s t

/-- Only the storage of the register name `r`, and flags, may differ. -/
def OnlyReg (r : Reg) (s t : State) : Prop := SameRegsBut r s t ∧ SameMemory s t ∧ SameControl s t

/-- `r` holds the integer `v`: whole in a 16-bit name, its low 8 bits in an alias (R14). -/
def HoldsResult (r : Reg) (v : Int) (t : State) : Prop :=
  match regWidth r with
  | .w16 => t.readReg r = v
  | .w8 => t.readReg r = v % 256

/-- The machine is as it was, but halted with reason `h` (60_exceptions.md R135). -/
def HaltedAs (h : HaltReason) (s t : State) : Prop :=
  t.halt = some h ∧ t.pc = s.pc ∧ t.sp = s.sp ∧ t.sbase = s.sbase ∧ t.ssize = s.ssize ∧
    SameRegs s t ∧ SameFlags s t ∧ SameMemory s t

/-! ## What sets a flag, and sequences of pushes -/

/-- The conditions of 10_state.md R19's table: instruction `i`, executed in `s`, sets flag `f`. -/
def flagCause (f : Flag) (i : Instr) (s : State) : Prop :=
  match f, i with
  | .overflow, .sum a r => ¬ fitsS16 (s.readReg r + s.resolve a)
  | .overflow, .sub a r => ¬ fitsS16 (s.resolve a - s.readReg r)
  | .overflow, .mul a r => ¬ fitsS16 (s.resolve a * s.readReg r)
  | .overflow, .div a r => s.resolve a = -32768 ∧ s.readReg r = -1
  | .overflow, .shr a _ => 15 < (u16 (s.resolve a)).toNat
  | .overflow, .shl a _ => 15 < (u16 (s.resolve a)).toNat
  | .overflow, .push _ => s.sp - s.sbase = s.ssize
  | .overflow, .pop _ => s.sp = s.sbase
  | .zero, .div _ r => s.readReg r = 0
  | .equal, .cmp a r => s.resolve a = s.readReg r
  | .greaterThan, .cmp a r => s.readReg r < s.resolve a
  | .lowerThan, .cmp a r => s.resolve a < s.readReg r
  | _, _ => False

/-- A stack fault: Push on a full stack or Pop on an empty one (R24). -/
def stackFaults (i : Instr) (s : State) : Prop :=
  match i with
  | .push _ => s.sp - s.sbase = s.ssize
  | .pop _ => s.sp = s.sbase
  | _ => False

/-- The cause of a stack fault in a host move (44_stack.md R120, R121; 10_state.md R28). -/
def hostStackFaults (h : HostMove) (s : State) : Prop :=
  match h with
  | .push _ => s.sp - s.sbase = s.ssize
  | .pop _ => s.sp = s.sbase
  | .writeReg _ _ => False
  | .writeByte _ _ => False
  | .writeWord _ _ => False

/-- The two bytes of an integer's pattern, the more significant first (20_memory.md R34). -/
def wordBytes (v : Int) : List Byte := [hiByte (u16 v), loByte (u16 v)]

/-- The address an instruction stores to and the bytes it stores there, if it is a form that stores: Load into memory
(40_load.md R83, R84) and Push where the stack is not full (44_stack.md R120). -/
def storeOf (i : Instr) (s : State) : Option (Nat × List Byte) :=
  match i with
  | .load (.register rs) (.constant k) =>
    match regWidth rs with
    | .w16 => some (k.toNat, wordBytes (s.readReg rs))
    | .w8 => some (k.toNat, [u8 (s.readReg rs)])
  | .load (.constant ks) (.constant kd) =>
    some (kd.toNat, [s.mem.byteAt ks.toNat, s.mem.byteAt (ks.toNat + 1)])
  | .push a =>
    if s.sp - s.sbase = s.ssize then none
    else some (s.sp.toNat, wordBytes (s.resolve a))
  | _ => none

/-- The byte at address `x` once `bytes` stand at `a` and after, over the memory `m`. -/
def byteOver (m : Memory) (a : Nat) (bytes : List Byte) (x : Nat) : Byte :=
  if a ≤ x ∧ x < a + bytes.length then bytes.getD (x - a) 0 else m.byteAt x

/-- `bytes` have been stored at `a`: they stand there over the old memory, and every register name and flag is as before. -/
def StoredAt (a : Nat) (bytes : List Byte) (s t : State) : Prop :=
  t.mem.size = s.mem.size ∧ (∀ x, t.mem.byteAt x = byteOver s.mem a bytes x) ∧ SameRegs s t ∧ SameFlags s t

/-- A stack fault has happened: `sp` is 0 and OVERFLOW set; every register name and byte is as before (R120, R121). -/
def StackFaulted (s t : State) : Prop :=
  t.sp = 0 ∧ FlagSetIff .overflow True s t ∧ SameRegs s t ∧ SameMemory s t

/-- What a register holds after the big-endian word at `a` was popped into it: the word, or its low byte in an alias
(44_stack.md R121). -/
def poppedValue (r : Reg) (m : Memory) (a : Nat) : Int :=
  match regWidth r with
  | .w16 => s16 ((m.byteAt a).zeroExtend 16 <<< 8 ||| (m.byteAt (a + 1)).zeroExtend 16)
  | .w8 => (m.byteAt (a + 1)).toNat

/-- The effect and the frame of each host move that is answered (10_state.md R28, 20_memory.md R32, R34, 44_stack.md R120,
R121). -/
def HostEffect (h : HostMove) (s t : State) : Prop :=
  match h with
  | .writeReg r v => t.readReg r = storedValue (regWidth r) v ∧ OnlyReg r s t ∧ SameFlags s t
  | .writeByte a b => StoredAt a [b] s t ∧ SameControl s t
  | .writeWord a v => StoredAt a (wordBytes v) s t ∧ SameControl s t
  | .push v =>
    t.pc = s.pc ∧ SameFixed s t ∧
      (if s.sp - s.sbase = s.ssize then StackFaulted s t
       else t.sp = s.sp + 2 ∧ StoredAt s.sp.toNat (wordBytes v) s t)
  | .pop r =>
    t.pc = s.pc ∧ SameFixed s t ∧
      (if s.sp = s.sbase then StackFaulted s t
       else t.sp = s.sp - 2 ∧ t.readReg r = poppedValue r s.mem (s.sp - 2).toNat ∧ SameRegsBut r s t ∧
        SameFlags s t ∧ SameMemory s t)

/-- The memory access a host move makes, if it makes one: its address and width. -/
def hostAccess (h : HostMove) (s : State) : Option (Nat × Nat) :=
  match h with
  | .writeReg _ _ => none
  | .writeByte a _ => some (a, 1)
  | .writeWord a _ => some (a, 2)
  | .push _ => if s.sp - s.sbase = s.ssize then none else some (s.sp.toNat, 2)
  | .pop _ => if s.sp = s.sbase then none else some ((s.sp - 2).toNat, 2)

/-- The operands of an instruction value, A before B (30_encoding.md R52). -/
def operandsOf : Instr → List Operand
  | .load a b => [a, b]
  | .sum a r => [a, .register r]
  | .sub a r => [a, .register r]
  | .mul a r => [a, .register r]
  | .div a r => [a, .register r]
  | .and a r => [a, .register r]
  | .or a r => [a, .register r]
  | .xor a r => [a, .register r]
  | .shr a r => [a, .register r]
  | .shl a r => [a, .register r]
  | .cmp a r => [a, .register r]
  | .not r => [.register r]
  | .jmp a => [a]
  | .jeq a => [a]
  | .jne a => [a]
  | .jgt a => [a]
  | .jlt a => [a]
  | .push a => [a]
  | .pop r => [.register r]

/-- Push one operand after another. -/
def pushAll : List Operand → State → Host.Outcome State Fault Refusal
  | [], s => .next s
  | a :: rest, s =>
    match exec (.push a) s with
    | .next t => pushAll rest t
    | .fault f => .fault f
    | .refused f => .refused f

end Sys2Proof.Machine
end

