-- ==== Sys2Proof/Certificates/Slice0/Obligations.lean ====
section
/-! DEFINITION. The statements for the provers, from the numbered rules of spec/. Where a clause rests on a decision of
spec/92_eei_decisions.md or on an entry of the assumption log, the docstring says so. -/

open Sys2Proof Sys2Proof.Machine

/-! ## Encoding -/

/-- 30_encoding.md R71, first direction: the stream form of every instruction the encoder does not refuse, standing in
memory, decodes to that instruction, consuming the bytes the slot's length byte counts. Memory holds stream forms by
decision D10; the opcode bytes are decisions D1 and D17 (log 8). -/
def Obligations.DecodeOfEncode : Prop :=
  ∀ (i : Instr) (slot : List Byte) (m : Memory) (off : Nat),
    encode i = .ok slot →
    (∀ k, k < (slot.getD 0 0).toNat / 8 → off + k < m.size ∧ m.byteAt (off + k) = slot.getD (k + 1) 0) →
    decodeAt m off = .ok (i, (slot.getD 0 0).toNat / 8)

/-- R71, second direction (the spec marks it derived): what decodes is well-formed, encodes, and its slot is the memory
bytes it was decoded from, after their length in bits. -/
def Obligations.EncodeOfDecode : Prop :=
  ∀ (m : Memory) (off : Nat) (i : Instr) (n : Nat),
    decodeAt m off = .ok (i, n) →
    i.wellFormed = true ∧ ∃ slot, encode i = .ok slot ∧ (slot.getD 0 0).toNat = 8 * n ∧
      ∀ k, k < n → off + k < m.size ∧ m.byteAt (off + k) = slot.getD (k + 1) 0

/-- R61: the encoder refuses exactly the nine instructions with a constant in a one-byte operand position (decision
D18), and answers with the refused value. -/
def Obligations.EncoderRefusals : Prop :=
  ∀ i : Instr,
    (encode i = .error ⟨i⟩ ↔
      ∃ (k : Word) (r : Reg), i = .shr (.constant k) r ∨ i = .shl (.constant k) r ∨ i = .cmp (.constant k) r ∨
        i = .jmp (.constant k) ∨ i = .jeq (.constant k) ∨ i = .jne (.constant k) ∨ i = .jgt (.constant k) ∨
        i = .jlt (.constant k) ∨ i = .push (.constant k)) ∧
    ((∃ slot, encode i = .ok slot) ∨ encode i = .error ⟨i⟩) ∧
    (i.wellFormed = true ↔ ∃ slot, encode i = .ok slot)

/-- R60: the opcode byte is built from the opcode number and the two kind bits; the stream is it and the payload, operand
A's and then operand B's, a register its code, a constant its two bytes, high byte first; the slot is six bytes: the
stream's length in bits, the stream, zeros; an instruction without a form is refused. -/
def Obligations.SlotShape : Prop :=
  (∀ r : Reg, (Operand.register r).payload = [r.code]) ∧
  (∀ k : Word, (Operand.constant k).payload = [k.extractLsb' 8 8, k.extractLsb' 0 8]) ∧
  ∀ i : Instr,
    i.payload = (operandsOf i).flatMap Operand.payload ∧
    (i.wellFormed = false → encode i = .error ⟨i⟩) ∧
    (i.wellFormed = true → ∃ (ob : Byte) (slot : List Byte),
      encode i = .ok slot ∧
      ob.toNat = i.op.number <<< 3 ||| i.fa.toNat <<< 1 ||| i.fb.toNat ∧
      slot = BitVec.ofNat 8 (8 * (1 + i.payload.length)) :: ob :: i.payload ++ List.replicate (4 - i.payload.length) 0 ∧
      slot.length = 6 ∧ 1 ≤ i.payload.length ∧ i.payload.length ≤ 4)

/-- R63: UnknownOpcode arises exactly when bits 7:3 of the opcode byte are 0 or 20 to 31, that is for the bytes 0x00 to
0x07 and 0xA0 to 0xFF, and carries the byte and its address. -/
def Obligations.UnknownOpcodeExactly : Prop :=
  ∀ (m : Memory) (off : Nat), off < m.size →
    (decodeAt m off = .error (.unknownOpcode (m.byteAt off) off) ↔
      (m.byteAt off).extractLsb' 3 5 = 0#5 ∨ 20 ≤ ((m.byteAt off).extractLsb' 3 5).toNat) ∧
    (decodeAt m off = .error (.unknownOpcode (m.byteAt off) off) ↔
      (m.byteAt off).toNat ≤ 0x07 ∨ 0xA0 ≤ (m.byteAt off).toNat) ∧
    (∀ ob a, decodeAt m off = .error (.unknownOpcode ob a) → ob = m.byteAt off ∧ a = off)

/-- R69, R66: the map of the 256 opcode byte values. The 29 bytes of the table are forms, of the lengths it gives; of the
others, those with opcode number 1 to 19 are ReservedForm (decision D19). The bytes rest on decisions D1 and D17 (log 8). -/
def Obligations.OpcodeByteMap : Prop :=
  (([0x08, 0x09, 0x0A, 0x0B, 0x11, 0x13, 0x19, 0x1B, 0x21, 0x23, 0x29, 0x2B, 0x31, 0x33, 0x39, 0x3B, 0x41, 0x43, 0x4B, 0x53,
    0x5B, 0x61, 0x6A, 0x72, 0x7A, 0x82, 0x8A, 0x92, 0x99] : List Byte).map lengthOfOpcodeByte =
    [5, 4, 4, 3, 4, 3, 4, 3, 4, 3, 4, 3, 4, 3, 4, 3, 4, 3, 3, 3, 3, 2, 2, 2, 2, 2, 2, 2, 2]) ∧
  ∀ (m : Memory) (off : Nat), off < m.size →
    (decodeAt m off = .error (.reservedForm (m.byteAt off) off) ↔
      (0x08 ≤ (m.byteAt off).toNat ∧ (m.byteAt off).toNat ≤ 0x9F) ∧
      m.byteAt off ∉ ([0x08, 0x09, 0x0A, 0x0B, 0x11, 0x13, 0x19, 0x1B, 0x21, 0x23, 0x29, 0x2B, 0x31, 0x33, 0x39, 0x3B, 0x41,
        0x43, 0x4B, 0x53, 0x5B, 0x61, 0x6A, 0x72, 0x7A, 0x82, 0x8A, 0x92, 0x99] : List Byte)) ∧
    (∀ ob a, decodeAt m off = .error (.reservedForm ob a) → ob = m.byteAt off ∧ a = off)

/-- R64: a byte in a register operand position that is 0 or 13..255 fails the decode with InvalidRegisterCode, carrying the
byte and its address. The positions (R53, R70): the first operand byte of a form whose operand A is a register, and of a
two-byte form; operand B after a valid register; operand B after an immediate. The error arises for no other byte. -/
def Obligations.InvalidRegisterCode : Prop :=
  ∀ (m : Memory) (off : Nat),
    let ob := m.byteAt off
    let bad := fun a : Nat => (m.byteAt a).toNat = 0 ∨ 13 ≤ (m.byteAt a).toNat
    (off + 1 < m.size → lengthOfOpcodeByte ob ≠ 0 → (flagA ob = true ∨ lengthOfOpcodeByte ob = 2) → bad (off + 1) →
      decodeAt m off = .error (.invalidRegisterCode (m.byteAt (off + 1)) (off + 1))) ∧
    (off + 2 < m.size → lengthOfOpcodeByte ob ≠ 0 → flagA ob = true → flagB ob = true → ¬ bad (off + 1) → bad (off + 2) →
      decodeAt m off = .error (.invalidRegisterCode (m.byteAt (off + 2)) (off + 2))) ∧
    (off + 3 < m.size → lengthOfOpcodeByte ob = 4 → flagB ob = true → bad (off + 3) →
      decodeAt m off = .error (.invalidRegisterCode (m.byteAt (off + 3)) (off + 3))) ∧
    (∀ c a, decodeAt m off = .error (.invalidRegisterCode c a) → a < m.size ∧ m.byteAt a = c ∧ bad a)

/-- R65, R67: an opcode byte beyond memory fails with TruncatedStream at its address; a form that reaches beyond memory
fails with TruncatedStream at MEM_SIZE, the first address needed there, unless an invalid register code comes before; the
error never names another address, and what decodes lies in memory. The name and the order are decision D20. -/
def Obligations.TruncatedStream : Prop :=
  ∀ (m : Memory) (off : Nat),
    (m.size ≤ off → decodeAt m off = .error (.truncatedStream off)) ∧
    (∀ a, decodeAt m off = .error (.truncatedStream a) → m.size ≤ a ∧ (off < m.size → a = m.size)) ∧
    (off < m.size → lengthOfOpcodeByte (m.byteAt off) ≠ 0 → m.size < off + lengthOfOpcodeByte (m.byteAt off) →
      decodeAt m off = .error (.truncatedStream m.size) ∨ ∃ c a, decodeAt m off = .error (.invalidRegisterCode c a)) ∧
    (∀ i n, decodeAt m off = .ok (i, n) → off + n ≤ m.size)

/-- R68: the count of bytes consumed is 2 to 5 and is the length R70 gives for the opcode byte; the decoder reads the
bytes `off` to `off + count - 1` and no others: any memory that holds those bytes decodes to the same. -/
def Obligations.BytesConsumed : Prop :=
  ∀ (m : Memory) (off : Nat) (i : Instr) (n : Nat),
    decodeAt m off = .ok (i, n) →
    2 ≤ n ∧ n ≤ 5 ∧ n = lengthOfOpcodeByte (m.byteAt off) ∧
    ∀ m' : Memory, off + n ≤ m'.size → (∀ k, k < n → m'.byteAt (off + k) = m.byteAt (off + k)) →
      decodeAt m' off = .ok (i, n)

/-- 95_test_vectors.md table E: words written out from the encodings decode to their instructions, one per format. -/
def Obligations.SampleWords : Prop :=
  decodeStream 0 [0x0B, 0x01, 0x04] = .ok (.load (.register .A) (.register .B), 3) ∧
  decodeStream 0 [0x08, 0xAB, 0xCD, 0x01, 0x02] = .ok (.load (.constant 0xABCD) (.constant 0x0102), 5) ∧
  decodeStream 0 [0x11, 0x7F, 0xFF, 0x0C] = .ok (.sum (.constant 0x7FFF) .DL, 4) ∧
  decodeStream 0 [0x5B, 0x01, 0x07] = .ok (.cmp (.register .A) .C, 3) ∧
  decodeStream 0 [0x61, 0x0C] = .ok (.not .DL, 2) ∧
  decodeStream 0 [0x92, 0x01] = .ok (.push (.register .A), 2)

/-- 10_state.md R12: the code of each register, and `reg(c)` its inverse, defined only for 1..12. -/
def Obligations.RegisterCodes : Prop :=
  (Reg.all.map Reg.code = [1, 2, 3, 4, 5, 6, 7, 8, 9, 10, 11, 12]) ∧
  (∀ r : Reg, r ∈ Reg.all) ∧
  (∀ (c : Byte) (r : Reg), Reg.ofCode c = some r ↔ r.code = c) ∧
  (∀ c : Byte, Reg.ofCode c = none ↔ c.toNat = 0 ∨ 13 ≤ c.toNat)

/-- 30_encoding.md R54: the opcode numbers are 1 to 19, contiguous, and no number outside names an instruction (all but
Load's are decision D1; log 8). -/
def Obligations.OpcodeNumbers : Prop :=
  (Op.all.map Op.number = [1, 2, 3, 4, 5, 6, 7, 8, 9, 10, 11, 12, 13, 14, 15, 16, 17, 18, 19]) ∧
  (∀ op : Op, op ∈ Op.all) ∧ (∀ (n : Nat) (op : Op), Op.ofNumber n = some op ↔ op.number = n)

/-- 30_encoding.md R74 (decision D26): reading the written form of any instruction value gives it back. -/
def Obligations.WrittenFormReads : Prop := ∀ i : Instr, parseInstr (writeInstr i) = some i

/-! ## Registers -/

/-- 10_state.md R15: writing AL then AH, or AH then AL, gives `A = (y << 8) | x`, for each accumulator; and after a
16-bit write the two aliases read as its two bytes (alias reads zero-extend by decision D13; log 7). -/
def Obligations.AliasLaw : Prop :=
  ∀ (s : State) (g h l : Reg), regAcc h = regAcc g → regAcc l = regAcc g →
    regPart g = .whole → regPart h = .high → regPart l = .low →
    (∀ x y : Byte,
      ((s.writeReg l x.toNat).writeReg h y.toNat).acc (regAcc g) = (y.zeroExtend 16 <<< 8) ||| x.zeroExtend 16 ∧
      ((s.writeReg h y.toNat).writeReg l x.toNat).acc (regAcc g) = (y.zeroExtend 16 <<< 8) ||| x.zeroExtend 16) ∧
    (∀ v : Int, (s.writeReg g v).readReg h = (u16 v).toNat / 256 ∧ (s.writeReg g v).readReg l = (u16 v).toNat % 256)

/-- R13, R14: what a register write leaves: the value reduced to the width; every name that shares no storage, every
flag, byte and control register as before. The value an alias reads as rests on decision D13. -/
def Obligations.RegisterWrite : Prop :=
  ∀ (s : State) (r : Reg) (v : Int),
    (s.writeReg r v).readReg r = storedValue (regWidth r) v ∧
    OnlyReg r s (s.writeReg r v) ∧ SameFlags s (s.writeReg r v)

/-- R13, R16: a 16-bit name reads as its accumulator's signed value, an alias as its byte, 0..255 (decision D13; log 7);
an operand resolves to what its register reads as, or to its constant's signed value, always a representable integer. -/
def Obligations.OperandRanges : Prop :=
  ∀ s : State,
    (∀ r : Reg, s.readReg r = (match regPart r with
      | .whole => (s.acc (regAcc r)).toInt
      | .high => (((s.acc (regAcc r)).toNat / 256 : Nat) : Int)
      | .low => (((s.acc (regAcc r)).toNat % 256 : Nat) : Int))) ∧
    (∀ r, regWidth r = .w16 → -32768 ≤ s.readReg r ∧ s.readReg r ≤ 32767) ∧
    (∀ r, regWidth r = .w8 → 0 ≤ s.readReg r ∧ s.readReg r ≤ 255) ∧
    (∀ r, s.resolve (.register r) = s.readReg r) ∧
    (∀ k : Word, s.resolve (.constant k) = if k.toNat < 32768 then (k.toNat : Int) else (k.toNat : Int) - 65536) ∧
    (∀ k : Word, u16 (s.resolve (.constant k)) = k) ∧
    (∀ a, fitsS16 (s.resolve a))

/-- R17, R18: a flag is its bit of the flags byte, OVERFLOW 0x01, ZERO 0x02, EQUAL 0x04, GREATER_THAN 0x08, LOWER_THAN 0x10
(positions by decision D2; log 8); setting a flag ORs its mask into the byte, sets that flag and no other, and writes
nothing else. -/
def Obligations.FlagBits : Prop :=
  ∀ (s : State) (f : Flag),
    let mask : Byte := match f with
      | .overflow => 0x01 | .zero => 0x02 | .equal => 0x04 | .greaterThan => 0x08 | .lowerThan => 0x10
    (s.flag f = true ↔ s.flags &&& mask = mask) ∧ (s.setFlag f).flags = s.flags ||| mask ∧
    FlagSetIff f True s (s.setFlag f) ∧ SameRegs s (s.setFlag f) ∧ SameMemory s (s.setFlag f) ∧
    SameControl s (s.setFlag f)

/-! ## Memory -/

/-- 20_memory.md R31, R32: `read` answers the byte at the address; `write` replaces it and changes no other byte, and no
register or flag. -/
def Obligations.ByteAccessors : Prop :=
  ∀ (s : State) (a : Nat), s.mem.wf = true → a < s.mem.size →
    s.mem.read a = .ok (s.mem.byteAt a) ∧
    ∀ b : Byte, ∃ m', s.mem.write a b = .ok m' ∧ m'.size = s.mem.size ∧ m'.read a = .ok b ∧
      (∀ x, x ≠ a → m'.byteAt x = s.mem.byteAt x ∧ m'.read x = s.mem.read x) ∧
      SameRegs s (s.setMem m') ∧ SameFlags s (s.setMem m') ∧ SameControl s (s.setMem m')

/-- R33, R34, R45: big-endian words: `read_16` after `write_16` returns the pattern; each byte reads as its half; two
byte writes read back as a word; nothing else changes. -/
def Obligations.WordAccessors : Prop :=
  ∀ (m : Memory) (a : Nat), m.wf = true → a + 1 < m.size →
    (m.read16 a = .ok ((m.byteAt a).zeroExtend 16 <<< 8 ||| (m.byteAt (a + 1)).zeroExtend 16)) ∧
    (∀ v : Int, ∃ m', m.write16 a v = .ok m' ∧ m'.size = m.size ∧ m'.read16 a = .ok (u16 v) ∧
      m'.load a .w8 = .ok ((u16 v).toNat / 256) ∧ m'.load (a + 1) .w8 = .ok ((u16 v).toNat % 256) ∧
      ∀ x, x < a ∨ a + 2 ≤ x → m'.byteAt x = m.byteAt x) ∧
    (∀ h l : Byte, ∃ m1 m2, m.write a h = .ok m1 ∧ m1.write (a + 1) l = .ok m2 ∧
      m2.load a .w16 = .ok (h.toNat * 256 + l.toNat))

/-- R35, R37: an access is answered exactly when it is in bounds, computed in the integers, and otherwise raises
OutOfBounds with its address and width (decision D23). -/
def Obligations.BoundsCheck : Prop :=
  ∀ (m : Memory) (a : Nat) (w : Width),
    ((∃ v, m.load a w = .ok v) ↔ a + accessBytes w ≤ m.size) ∧
    (¬ a + accessBytes w ≤ m.size → m.load a w = .error (.outOfBounds a (accessBytes w))) ∧
    (∀ v : Int, ((∃ m', m.store a w v = .ok m') ↔ a + accessBytes w ≤ m.size) ∧
      (¬ a + accessBytes w ≤ m.size → m.store a w v = .error (.outOfBounds a (accessBytes w))))

/-- The model's form of the memory array (log 4): a store in bounds keeps it canonical, and canonical memories of one
size with the same bytes are the same data. -/
def Obligations.MemoryCanonical : Prop :=
  (∀ (m m' : Memory) (a : Nat) (w : Width) (v : Int), m.wf = true → m.store a w v = .ok m' → m'.wf = true) ∧
  (∀ m m' : Memory, m.wf = true → m'.wf = true → m.size = m'.size → (∀ a, a < m.size → m.byteAt a = m'.byteAt a) → m = m')

/-! ## Reset -/

/-- 10_state.md R27, 70_reset_and_hazards.md R150: the values of decisions D3 and D4 (log 3), for every choice of the
launch parameters; `State.reset` is this at the model's choice of them (log 1). -/
def Obligations.ResetRegisters : Prop :=
  (∀ p : Launch,
    (∀ r, (State.resetWith p).readReg r = 0) ∧ (∀ f, (State.resetWith p).flag f = false) ∧
    (State.resetWith p).pc = 0 ∧ (State.resetWith p).sp = p.stackBase ∧ (State.resetWith p).sbase = p.stackBase ∧
    (State.resetWith p).ssize = p.stackSize ∧ (State.resetWith p).mem.size = p.memSize ∧
    (State.resetWith p).halt = none) ∧
  State.reset = State.resetWith Settings.launch

/-- R27: after reset memory is the bytes of IMAGE at their addresses and 0x00 everywhere else (decision D5; log 4), for
an image that fits and names no address twice (log 11). -/
def Obligations.ResetMemory : Prop :=
  ∀ p : Launch, launchImageFits p → (p.image.map Prod.fst).Nodup →
    (∀ c ∈ p.image, (State.resetWith p).mem.byteAt c.1 = c.2) ∧
    (∀ a, a ∉ p.image.map Prod.fst → (State.resetWith p).mem.byteAt a = 0)

/-- The model's invariant holds after reset, for every memory size R5 allows and every image, and at `State.reset`. Its
clauses are the model's form of what R17 and R30 say: the canonical form of memory is a DESIGN CHOICE (log 4), the size
range is R5's (log 10), flag bits 7:5 are 0 by this invariant and not by the type (log 6). -/
def Obligations.ResetInvariant : Prop :=
  (∀ p : Launch, launchSizeOk p → (State.resetWith p).Inv) ∧ State.reset.Inv

/-! ## The step -/

/-- 10_state.md R21 (the cycle is decision D8): when the bytes at `pc` decode to an instruction, a machine that is not
halted advances `pc` by the bytes consumed, modulo 65536 (D9), and executes it. -/
def Obligations.StepRunsDecoded : Prop :=
  ∀ (s : State) (i : Instr) (n : Nat), s.halt = none → decodeAt s.mem s.pc.toNat = .ok (i, n) →
    step s = exec i (s.advance n) ∧ (s.advance n).pc.toNat = (s.pc.toNat + n) % 65536 ∧
    SameAllButPc s (s.advance n)

/-- 60_exceptions.md R133 (decision D21): a decode error at Step writes nothing, does not advance `pc`, and halts the
machine with the error as its reason. -/
def Obligations.StepDecodeError : Prop :=
  ∀ (s : State) (e : DecodeError), s.halt = none → decodeAt s.mem s.pc.toNat = .error e →
    ∃ t, step s = .next t ∧ HaltedAs (.decode e) s t

/-- R140 (D21): every state has exactly one successor under Step until the machine halts; a halted machine has none, and
`step` says with which reason it halted. -/
def Obligations.StepUntilHalted : Prop :=
  ∀ s : State,
    ((∃ t, step s = .next t) ↔ s.halt = none) ∧ (∀ r, step s = .fault (.halted r) ↔ s.halt = some r) ∧
    (∀ f, step s ≠ .refused f)

/-- Every step keeps the model's invariant: canonical memory, the model's DESIGN CHOICE (log 4); a size R5 allows (log 10);
flag bits 7:5 clear (R17, decision D2), which the model keeps as an invariant (log 6). -/
def Obligations.StepKeepsInvariant : Prop :=
  ∀ s t : State, s.Inv → step s = .next t → t.Inv

/-- 10_state.md R18: flags are sticky and set-only: no instruction, and no step, ever clears one. -/
def Obligations.FlagsSticky : Prop :=
  (∀ (i : Instr) (s t : State) (f : Flag), exec i s = .next t → s.flag f = true → t.flag f = true) ∧
  (∀ (s t : State) (f : Flag), step s = .next t → s.flag f = true → t.flag f = true)

/-- R19: after any instruction a flag is set exactly when it was set before or the instruction's row of the table holds
(the row of Div's overflow is decision D15, of the shifts D16, of Sub's operand order D14; log 7). -/
def Obligations.FlagsSetByTable : Prop :=
  ∀ (i : Instr) (s t : State) (f : Flag), exec i s = .next t →
    (t.flag f = true ↔ s.flag f = true ∨ flagCause f i s) ∧ SameReserved s t

/-- R23, 20_memory.md R30: the stack base, the stack size and the memory size are written by no step. -/
def Obligations.GeometryFixed : Prop :=
  ∀ s t : State, step s = .next t → t.sbase = s.sbase ∧ t.ssize = s.ssize ∧ t.mem.size = s.mem.size

/-- R20, R23, 20_memory.md R38: of the instructions only the five jumps write `pc`, only Push and Pop the stack pointer,
and only Load with a constant operand B and Push a byte of memory. -/
def Obligations.Writers : Prop :=
  ∀ (i : Instr) (s t : State), exec i s = .next t →
    (t.pc ≠ s.pc → ∃ a, i = .jmp a ∨ i = .jeq a ∨ i = .jne a ∨ i = .jgt a ∨ i = .jlt a) ∧
    (t.sp ≠ s.sp → (∃ a, i = .push a) ∨ ∃ r, i = .pop r) ∧
    (∀ x : Nat, t.mem.byteAt x ≠ s.mem.byteAt x → (∃ a k, i = .load a (.constant k)) ∨ ∃ a, i = .push a)

/-- 60_exceptions.md R135, R137 (decision D22): when a step raises a fatal fault, the machine has advanced `pc` past the
instruction and written nothing else but the halted state; only Load, Push and Pop raise one. -/
def Obligations.FatalFaultWritesNothing : Prop :=
  ∀ (s t : State) (f : FatalFault), s.halt = none → step s = .next t → t.halt = some (.fatal f) →
    ∃ i n, decodeAt s.mem s.pc.toNat = .ok (i, n) ∧ t.pc.toNat = (s.pc.toNat + n) % 65536 ∧ t.sp = s.sp ∧
      t.sbase = s.sbase ∧ t.ssize = s.ssize ∧ SameRegs s t ∧ SameFlags s t ∧ SameMemory s t ∧
      ((∃ a b, i = .load a b) ∨ (∃ a, i = .push a) ∨ ∃ r, i = .pop r)

/-- 20_memory.md R42 (derived there): every store is seen by the very next fetch. For every form that stores, its bytes in
bounds (a memory to memory Load reads its source in bounds too): the memory afterwards is the old one with those bytes over
it; the next step decodes and runs what stands at `pc` in that memory, whatever bytes these are; and a stored byte of no
opcode number at `pc` halts it there. -/
def Obligations.StoreSeenByNextFetch : Prop :=
  ∀ (s : State) (i : Instr) (a : Nat) (bytes : List Byte), s.mem.wf = true → s.halt = none →
    storeOf i s = some (a, bytes) → a + bytes.length ≤ s.mem.size →
    (∀ ks kd, i = .load (.constant ks) (.constant kd) → ks.toNat + 2 ≤ s.mem.size) →
    ∃ t, exec i s = .next t ∧ t.pc = s.pc ∧ t.mem.size = s.mem.size ∧
      (∀ x, t.mem.byteAt x = byteOver s.mem a bytes x) ∧
      (∀ m : Memory, m.size = s.mem.size → (∀ x, x < s.mem.size → m.byteAt x = byteOver s.mem a bytes x) →
        (∀ j n, decodeAt m s.pc.toNat = .ok (j, n) → step t = exec j (t.advance n)) ∧
        (∀ e, decodeAt m s.pc.toNat = .error e → step t = .next (t.enterHalt (.decode e)))) ∧
      (∀ b : Byte, a ≤ s.pc.toNat → bytes[s.pc.toNat - a]? = some b → b.toNat ≤ 0x07 ∨ 0xA0 ≤ b.toNat →
        step t = .next (t.enterHalt (.decode (.unknownOpcode b s.pc.toNat))))

/-- 60_exceptions.md R145 (decision D27): a run ends normally exactly when the halt reason is UnknownOpcode(0x00, a), and
every other halt reason is a run gone wrong; running into a zero byte ends the run normally, with nothing changed. -/
def Obligations.ZeroByteEndsNormally : Prop :=
  (∀ s : State,
    (s.endedNormally = true ↔ ∃ a, s.halt = some (.decode (.unknownOpcode 0 a))) ∧
    (s.wentWrong = true ↔ ∃ r, s.halt = some r ∧ ∀ a, r ≠ .decode (.unknownOpcode 0 a))) ∧
  ∀ s : State, s.halt = none → s.pc.toNat < s.mem.size → s.mem.byteAt s.pc.toNat = 0 →
    ∃ t, step s = .next t ∧ t.endedNormally = true ∧ HaltedAs (.decode (.unknownOpcode 0 s.pc.toNat)) s t

/-- 70_reset_and_hazards.md R154 (derived there): once EQUAL is set, after any further number of steps Jeq jumps and Jne
does not; likewise Jgt and Jlt with their flags. -/
def Obligations.StickyFlagHazard : Prop :=
  ∀ (s t : State) (k : Nat), Host.Core.run Sys2Proof.core k s = .next t →
    (s.flag .equal = true → ∀ a, exec (.jeq a) t = .next (t.setPc (u16 (t.resolve a))) ∧ exec (.jne a) t = .next t) ∧
    (s.flag .greaterThan = true → ∀ a, exec (.jgt a) t = .next (t.setPc (u16 (t.resolve a)))) ∧
    (s.flag .lowerThan = true → ∀ a, exec (.jlt a) t = .next (t.setPc (u16 (t.resolve a))))

/-! ## Load -/

/-- 40_load.md R81: between names of one width the value is copied and nothing else changes. -/
def Obligations.LoadRegisterToRegister : Prop :=
  ∀ (rs rd : Reg) (s : State), regWidth rs = regWidth rd →
    ∃ t, exec (.load (.register rs) (.register rd)) s = .next t ∧ t.readReg rd = s.readReg rs ∧ OnlyReg rd s t ∧
      SameFlags s t

/-- R81, R135: between names of different widths Load halts the machine with LoadWidthMismatch and writes nothing else
(decisions D21, D22; log 5). -/
def Obligations.LoadWidthMismatch : Prop :=
  ∀ (rs rd : Reg) (s : State), regWidth rs ≠ regWidth rd →
    ∃ t, exec (.load (.register rs) (.register rd)) s = .next t ∧ HaltedAs (.fatal (.loadWidthMismatch rs rd)) s t

/-- R82 (a constant operand is an address by decision D11, the width is the register's by D12; log 7): a 16-bit name
receives the big-endian word at the address, an alias the byte. -/
def Obligations.LoadMemoryToRegister : Prop :=
  ∀ (k : Word) (rd : Reg) (s : State),
    (regWidth rd = .w16 → k.toNat + 2 ≤ s.mem.size →
      ∃ t, exec (.load (.constant k) (.register rd)) s = .next t ∧
        t.readReg rd = s16 ((s.mem.byteAt k.toNat).zeroExtend 16 <<< 8 ||| (s.mem.byteAt (k.toNat + 1)).zeroExtend 16) ∧
        OnlyReg rd s t ∧ SameFlags s t) ∧
    (regWidth rd = .w8 → k.toNat + 1 ≤ s.mem.size →
      ∃ t, exec (.load (.constant k) (.register rd)) s = .next t ∧ t.readReg rd = (s.mem.byteAt k.toNat).toNat ∧
        OnlyReg rd s t ∧ SameFlags s t)

/-- R83 (D11, D12): a 16-bit name stores its two bytes, high byte first, an alias its one byte; no other byte, register
or flag changes. -/
def Obligations.LoadRegisterToMemory : Prop :=
  ∀ (rs : Reg) (k : Word) (s : State), s.mem.wf = true →
    (regWidth rs = .w16 → k.toNat + 2 ≤ s.mem.size →
      ∃ t, exec (.load (.register rs) (.constant k)) s = .next t ∧
        (t.mem.byteAt k.toNat).toNat * 256 + (t.mem.byteAt (k.toNat + 1)).toNat = (u16 (s.readReg rs)).toNat ∧
        SameMemoryBut k.toNat 2 s t ∧ SameRegs s t ∧ SameFlags s t ∧ SameControl s t) ∧
    (regWidth rs = .w8 → k.toNat + 1 ≤ s.mem.size →
      ∃ t, exec (.load (.register rs) (.constant k)) s = .next t ∧
        ((t.mem.byteAt k.toNat).toNat : Int) = s.readReg rs ∧
        SameMemoryBut k.toNat 1 s t ∧ SameRegs s t ∧ SameFlags s t ∧ SameControl s t)

/-- R84 (D11, D12): memory to memory copies two bytes, read before either is written, also when the ranges overlap. -/
def Obligations.LoadMemoryToMemory : Prop :=
  ∀ (ks kd : Word) (s : State), s.mem.wf = true → ks.toNat + 2 ≤ s.mem.size → kd.toNat + 2 ≤ s.mem.size →
    ∃ t, exec (.load (.constant ks) (.constant kd)) s = .next t ∧
      t.mem.byteAt kd.toNat = s.mem.byteAt ks.toNat ∧ t.mem.byteAt (kd.toNat + 1) = s.mem.byteAt (ks.toNat + 1) ∧
      SameMemoryBut kd.toNat 2 s t ∧ SameRegs s t ∧ SameFlags s t ∧ SameControl s t

/-- R82 to R84, 20_memory.md R35: a memory operand out of bounds halts the machine with OutOfBounds and writes nothing
else; memory to memory checks the source address first (decisions D22, D23; log 5). -/
def Obligations.LoadOutOfBounds : Prop :=
  ∀ (k kd : Word) (r : Reg) (s : State),
    (¬ k.toNat + accessBytes (regWidth r) ≤ s.mem.size →
      (∃ t, exec (.load (.constant k) (.register r)) s = .next t ∧
        HaltedAs (.fatal (.outOfBounds k.toNat (accessBytes (regWidth r)))) s t) ∧
      ∃ t, exec (.load (.register r) (.constant k)) s = .next t ∧
        HaltedAs (.fatal (.outOfBounds k.toNat (accessBytes (regWidth r)))) s t) ∧
    (¬ k.toNat + 2 ≤ s.mem.size →
      ∃ t, exec (.load (.constant k) (.constant kd)) s = .next t ∧ HaltedAs (.fatal (.outOfBounds k.toNat 2)) s t) ∧
    (k.toNat + 2 ≤ s.mem.size → ¬ kd.toNat + 2 ≤ s.mem.size →
      ∃ t, exec (.load (.constant k) (.constant kd)) s = .next t ∧ HaltedAs (.fatal (.outOfBounds kd.toNat 2)) s t)

/-! ## Arithmetic -/

/-- 41_arithmetic.md R91, R90: Sum. -/
def Obligations.SumResult : Prop :=
  ∀ (a : Operand) (r : Reg) (s : State),
    ∃ t, exec (.sum a r) s = .next t ∧
      (fitsS16 (s.readReg r + s.resolve a) → HoldsResult r (s.readReg r + s.resolve a) t) ∧
      (¬ fitsS16 (s.readReg r + s.resolve a) → t.readReg r = 0) ∧
      FlagSetIff .overflow (¬ fitsS16 (s.readReg r + s.resolve a)) s t ∧ OnlyReg r s t

/-- R92: Sub computes operand A minus operand B by decision D14 (log 7). -/
def Obligations.SubResult : Prop :=
  ∀ (a : Operand) (r : Reg) (s : State),
    ∃ t, exec (.sub a r) s = .next t ∧
      (fitsS16 (s.resolve a - s.readReg r) → HoldsResult r (s.resolve a - s.readReg r) t) ∧
      (¬ fitsS16 (s.resolve a - s.readReg r) → t.readReg r = 0) ∧
      FlagSetIff .overflow (¬ fitsS16 (s.resolve a - s.readReg r)) s t ∧ OnlyReg r s t

/-- R93: Mul, its two encodings, its result, its flag, and no fault. -/
def Obligations.MulResult : Prop :=
  (∀ (q r : Reg) (k : Word),
    encodeStream (.mul (.register q) r) = .ok [0x23, q.code, r.code] ∧
    encodeStream (.mul (.constant k) r) = .ok [0x21, hiByte k, loByte k, r.code]) ∧
  ∀ (a : Operand) (r : Reg) (s : State),
    ∃ t, exec (.mul a r) s = .next t ∧
      (fitsS16 (s.resolve a * s.readReg r) → HoldsResult r (s.resolve a * s.readReg r) t) ∧
      (¬ fitsS16 (s.resolve a * s.readReg r) → t.readReg r = 0) ∧
      FlagSetIff .overflow (¬ fitsS16 (s.resolve a * s.readReg r)) s t ∧ OnlyReg r s t

/-- R94: Div: the quotient rounded toward zero; a zero divisor gives 0 and ZERO; -32768 / -1 gives 0 and OVERFLOW by
decision D15 (log 7). -/
def Obligations.DivResult : Prop :=
  ∀ (a : Operand) (r : Reg) (s : State),
    ∃ t, exec (.div a r) s = .next t ∧
      (s.readReg r = 0 → t.readReg r = 0) ∧
      (s.resolve a = -32768 ∧ s.readReg r = -1 → t.readReg r = 0) ∧
      (s.readReg r ≠ 0 → ¬ (s.resolve a = -32768 ∧ s.readReg r = -1) →
        HoldsResult r ((s.resolve a).sign * (s.readReg r).sign * (((s.resolve a).natAbs / (s.readReg r).natAbs : Nat) : Int)) t) ∧
      (t.flag .zero = true ↔ s.flag .zero = true ∨ s.readReg r = 0) ∧
      (t.flag .overflow = true ↔ s.flag .overflow = true ∨ s.resolve a = -32768 ∧ s.readReg r = -1) ∧
      (∀ f, f ≠ .zero → f ≠ .overflow → t.flag f = s.flag f) ∧ SameReserved s t ∧ OnlyReg r s t

/-! ## Logic and shifts -/

/-- 42_logic_shift.md R100 to R102: And, Or, Xor on 16-bit patterns, with their encodings; no flag, no fault. -/
def Obligations.BitwiseResults : Prop :=
  (∀ (q r : Reg) (k : Word),
    encodeStream (.and (.register q) r) = .ok [0x33, q.code, r.code] ∧
    encodeStream (.and (.constant k) r) = .ok [0x31, hiByte k, loByte k, r.code] ∧
    encodeStream (.or (.register q) r) = .ok [0x3B, q.code, r.code] ∧
    encodeStream (.or (.constant k) r) = .ok [0x39, hiByte k, loByte k, r.code] ∧
    encodeStream (.xor (.register q) r) = .ok [0x43, q.code, r.code] ∧
    encodeStream (.xor (.constant k) r) = .ok [0x41, hiByte k, loByte k, r.code]) ∧
  ∀ (a : Operand) (r : Reg) (s : State),
    (∃ t, exec (.and a r) s = .next t ∧
      t.readReg r = storedValue (regWidth r) ((u16 (s.resolve a)).toNat &&& (u16 (s.readReg r)).toNat : Nat) ∧
      OnlyReg r s t ∧ SameFlags s t) ∧
    (∃ t, exec (.or a r) s = .next t ∧
      t.readReg r = storedValue (regWidth r) ((u16 (s.resolve a)).toNat ||| (u16 (s.readReg r)).toNat : Nat) ∧
      OnlyReg r s t ∧ SameFlags s t) ∧
    (∃ t, exec (.xor a r) s = .next t ∧
      t.readReg r = storedValue (regWidth r) ((u16 (s.resolve a)).toNat ^^^ (u16 (s.readReg r)).toNat : Nat) ∧
      OnlyReg r s t ∧ SameFlags s t)

/-- R103: Not: `-1 - x` in a 16-bit name, `255 - byte` in an alias; twice restores the register; its encoding. -/
def Obligations.NotResult : Prop :=
  (∀ r : Reg, encodeStream (.not r) = .ok [0x61, r.code]) ∧
  ∀ (r : Reg) (s : State),
    ∃ t u, exec (.not r) s = .next t ∧
      (regWidth r = .w16 → t.readReg r = -1 - s.readReg r) ∧ (regWidth r = .w8 → t.readReg r = 255 - s.readReg r) ∧
      OnlyReg r s t ∧ SameFlags s t ∧ exec (.not r) t = .next u ∧ u.readReg r = s.readReg r

/-- R105: Shr: the amount is the operand's unsigned pattern; above 15, 0 and OVERFLOW; else a logical right shift of the
pattern, that is a division by a power of two; its encoding, and the refusal of the constant-amount form. -/
def Obligations.ShrResult : Prop :=
  (∀ (q r : Reg) (k : Word),
    encodeStream (.shr (.register q) r) = .ok [0x4B, q.code, r.code] ∧
    encodeStream (.shr (.constant k) r) = .error ⟨.shr (.constant k) r⟩) ∧
  ∀ (a : Operand) (r : Reg) (s : State),
    ∃ t, exec (.shr a r) s = .next t ∧
      (15 < (u16 (s.resolve a)).toNat → t.readReg r = 0) ∧
      ((u16 (s.resolve a)).toNat ≤ 15 →
        t.readReg r = storedValue (regWidth r) ((u16 (s.readReg r)).toNat / 2 ^ (u16 (s.resolve a)).toNat : Nat)) ∧
      FlagSetIff .overflow (15 < (u16 (s.resolve a)).toNat) s t ∧ OnlyReg r s t

/-- R106: Shl: the same guard; else the pattern times a power of two, modulo 65536. -/
def Obligations.ShlResult : Prop :=
  (∀ (q r : Reg) (k : Word),
    encodeStream (.shl (.register q) r) = .ok [0x53, q.code, r.code] ∧
    encodeStream (.shl (.constant k) r) = .error ⟨.shl (.constant k) r⟩) ∧
  ∀ (a : Operand) (r : Reg) (s : State),
    ∃ t, exec (.shl a r) s = .next t ∧
      (15 < (u16 (s.resolve a)).toNat → t.readReg r = 0) ∧
      ((u16 (s.resolve a)).toNat ≤ 15 →
        t.readReg r =
          storedValue (regWidth r) ((u16 (s.readReg r)).toNat * 2 ^ (u16 (s.resolve a)).toNat % 65536 : Nat)) ∧
      FlagSetIff .overflow (15 < (u16 (s.resolve a)).toNat) s t ∧ OnlyReg r s t

/-! ## Compare and jumps -/

/-- 43_compare_jump.md R110: Cmp sets exactly one comparison flag, by the comparison of the integers (an alias as 0..255
by decision D13), leaves every other flag, and writes nothing else. -/
def Obligations.CmpResult : Prop :=
  ∀ (a : Operand) (r : Reg) (s : State),
    ∃ t, exec (.cmp a r) s = .next t ∧
      (t.flag .equal = true ↔ s.flag .equal = true ∨ s.resolve a = s.readReg r) ∧
      (t.flag .greaterThan = true ↔ s.flag .greaterThan = true ∨ s.resolve a > s.readReg r) ∧
      (t.flag .lowerThan = true ↔ s.flag .lowerThan = true ∨ s.resolve a < s.readReg r) ∧
      t.flag .overflow = s.flag .overflow ∧ t.flag .zero = s.flag .zero ∧ SameReserved s t ∧
      SameRegs s t ∧ SameMemory s t ∧ SameControl s t

/-- R112 to R116: the five jumps: when taken `pc` becomes the operand's 16-bit pattern, otherwise it stays at the next
instruction; nothing else changes; their encodings. -/
def Obligations.JumpResults : Prop :=
  (∀ q : Reg,
    encodeStream (.jmp (.register q)) = .ok [0x6A, q.code] ∧ encodeStream (.jeq (.register q)) = .ok [0x72, q.code] ∧
    encodeStream (.jne (.register q)) = .ok [0x7A, q.code] ∧ encodeStream (.jgt (.register q)) = .ok [0x82, q.code] ∧
    encodeStream (.jlt (.register q)) = .ok [0x8A, q.code]) ∧
  ∀ (a : Operand) (s : State),
    (∃ t, exec (.jmp a) s = .next t ∧ t.pc = u16 (s.resolve a) ∧ SameAllButPc s t) ∧
    (∃ t, exec (.jeq a) s = .next t ∧ t.pc = (if s.flag .equal = true then u16 (s.resolve a) else s.pc) ∧
      SameAllButPc s t) ∧
    (∃ t, exec (.jne a) s = .next t ∧ t.pc = (if s.flag .equal = false then u16 (s.resolve a) else s.pc) ∧
      SameAllButPc s t) ∧
    (∃ t, exec (.jgt a) s = .next t ∧ t.pc = (if s.flag .greaterThan = true then u16 (s.resolve a) else s.pc) ∧
      SameAllButPc s t) ∧
    (∃ t, exec (.jlt a) s = .next t ∧ t.pc = (if s.flag .lowerThan = true then u16 (s.resolve a) else s.pc) ∧
      SameAllButPc s t)

/-! ## Stack -/

/-- 44_stack.md R120, not full (arithmetic on `sp` modulo 65536 by decision D24): the value's two bytes at `sp`, high byte
first, and `sp + 2`; nothing else changes. -/
def Obligations.PushStores : Prop :=
  ∀ (a : Operand) (s : State), s.mem.wf = true → s.sp - s.sbase ≠ s.ssize → s.sp.toNat + 2 ≤ s.mem.size →
    ∃ t, exec (.push a) s = .next t ∧ t.sp.toNat = (s.sp.toNat + 2) % 65536 ∧
      (t.mem.byteAt s.sp.toNat).toNat * 256 + (t.mem.byteAt (s.sp.toNat + 1)).toNat = (u16 (s.resolve a)).toNat ∧
      SameMemoryBut s.sp.toNat 2 s t ∧ SameRegs s t ∧ SameFlags s t ∧ t.pc = s.pc ∧ SameFixed s t

/-- R121, not empty: `sp - 2` modulo 65536 (D24), and the big-endian word there into the register, its low 8 bits into an
alias; memory is not changed. -/
def Obligations.PopLoads : Prop :=
  ∀ (r : Reg) (s : State), s.sp ≠ s.sbase → (s.sp - 2).toNat + 2 ≤ s.mem.size →
    ∃ t, exec (.pop r) s = .next t ∧ t.sp = s.sp - 2 ∧
      t.readReg r = (match regWidth r with
        | .w16 => s16 ((s.mem.byteAt (s.sp - 2).toNat).zeroExtend 16 <<< 8 |||
            (s.mem.byteAt ((s.sp - 2).toNat + 1)).zeroExtend 16)
        | .w8 => ((s.mem.byteAt ((s.sp - 2).toNat + 1)).toNat : Int)) ∧
      SameRegsBut r s t ∧ SameFlags s t ∧ SameMemory s t ∧ t.pc = s.pc ∧ SameFixed s t

/-- R120, R121, R131: Push on a full stack discards the value, Pop on an empty one leaves its register; both set `sp` to
the literal 0 (decision D24) and OVERFLOW, and the machine goes on. -/
def Obligations.StackFaultPaths : Prop :=
  ∀ s : State,
    (s.sp - s.sbase = s.ssize → ∀ a, ∃ t, exec (.push a) s = .next t ∧ t.sp = 0 ∧ FlagSetIff .overflow True s t ∧
      SameRegs s t ∧ SameMemory s t ∧ t.pc = s.pc ∧ SameFixed s t) ∧
    (s.sp = s.sbase → ∀ r, ∃ t, exec (.pop r) s = .next t ∧ t.sp = 0 ∧ FlagSetIff .overflow True s t ∧
      SameRegs s t ∧ SameMemory s t ∧ t.pc = s.pc ∧ SameFixed s t)

/-- R120, R121, 60_exceptions.md R135: on the other paths an access out of bounds halts the machine with OutOfBounds, and
`sp`, the register and memory are as before (decision D22; log 5). -/
def Obligations.StackOutOfBounds : Prop :=
  ∀ s : State,
    (s.sp - s.sbase ≠ s.ssize → ¬ s.sp.toNat + 2 ≤ s.mem.size → ∀ a, ∃ t, exec (.push a) s = .next t ∧
      HaltedAs (.fatal (.outOfBounds s.sp.toNat 2)) s t) ∧
    (s.sp ≠ s.sbase → ¬ (s.sp - 2).toNat + 2 ≤ s.mem.size → ∀ r, ∃ t, exec (.pop r) s = .next t ∧
      HaltedAs (.fatal (.outOfBounds (s.sp - 2).toNat 2)) s t)

/-- R122 (2) (derived there): a Pop directly after a Push into a 16-bit register returns the value pushed and restores
`sp`. -/
def Obligations.PopAfterPush : Prop :=
  ∀ (a : Operand) (r : Reg) (s : State), s.mem.wf = true → regWidth r = .w16 → s.sp - s.sbase ≠ s.ssize →
    s.sp + 2 ≠ s.sbase → s.sp.toNat + 2 ≤ s.mem.size →
    ∃ t u, exec (.push a) s = .next t ∧ exec (.pop r) t = .next u ∧ u.sp = s.sp ∧ u.readReg r = s.resolve a ∧
      SameRegsBut r s u ∧ SameFlags s u

/-- R122 (1): from an empty stack with the launch premises, any N/2 pushes succeed: `sp` moves by 2 each (modulo 65536,
decision D24), the values stand as big-endian words from the base on, no other byte changes, and the push after N/2 takes
the full path. -/
def Obligations.StackCapacity : Prop :=
  ∀ (s : State) (values : List Operand), s.mem.wf = true → s.StackGeometry → s.sp = s.sbase →
    2 * values.length ≤ s.ssize.toNat →
    ∃ t, pushAll values s = .next t ∧ t.sp.toNat = (s.sbase.toNat + 2 * values.length) % 65536 ∧ SameFlags s t ∧
      SameRegs s t ∧ t.pc = s.pc ∧ SameFixed s t ∧ SameMemoryBut s.sbase.toNat (2 * values.length) s t ∧
      (∀ k a, values[k]? = some a → t.mem.read16 (s.sbase.toNat + 2 * k) = .ok (u16 (s.resolve a))) ∧
      (2 * values.length = s.ssize.toNat → ∀ a, ∃ u, exec (.push a) t = .next u ∧ u.sp = 0 ∧ u.flag .overflow = true)

/-- 10_state.md R24: under the launch premises every instruction keeps `stack base <= stack pointer <= stack base + stack
size`, except a stack fault when the base is not 0 (90_conflicts.md C3, decision D24). The region must end below address
65536: a region that ends there leaves `sp = 0` when full, by the modulo of D24 (log 17). And where the region does not
overlap the program or its data, premise c of 70_reset_and_hazards.md R152, no Push changes a byte of them. -/
def Obligations.StackInvariantKept : Prop :=
  ∀ (i : Instr) (s t : State), s.StackGeometry → s.sbase.toNat + s.ssize.toNat < 65536 → s.StackInv →
    exec i s = .next t →
    (s.sbase = 0 ∨ ¬ stackFaults i s → t.StackInv ∧ t.StackGeometry) ∧
    (∀ program a, s.StackApart program → i = .push a →
      t.StackApart program ∧ ∀ x ∈ program, t.mem.byteAt x = s.mem.byteAt x)

/-! ## The host -/

/-- 10_state.md R28 (decision D29; log 14): a host move, on a halted machine too (log 14), is answered exactly when the
memory access it makes is in bounds, and otherwise raises OutOfBounds with nothing changed. Answered, it has the effect and
the frame of its accessor or stack operation and no other, keeps the model's invariant (whose canonical memory is log 4),
writes no `pc`, stack base, stack size, memory size or halted state, and sets OVERFLOW exactly by a stack fault. An alias
reads unsigned by decision D13. -/
def Obligations.HostMovesBounded : Prop :=
  ∀ (h : HostMove) (s : State), s.Inv →
    ((∀ a n, hostAccess h s = some (a, n) → a + n ≤ s.mem.size) → ∃ t, hostApply h s = .ok t) ∧
    (∀ a n, hostAccess h s = some (a, n) → ¬ a + n ≤ s.mem.size → hostApply h s = .error (.outOfBounds a n)) ∧
    (∀ t, hostApply h s = .ok t →
      HostEffect h s t ∧ t.Inv ∧ t.pc = s.pc ∧ SameFixed s t ∧ t.mem.size = s.mem.size ∧
      FlagSetIff .overflow (hostStackFaults h s) s t)
end

