-- ==== Sys2Proof/Laws/Bits.lean ====
section
/-! SUPPORT. Patterns, bytes and integers (00_scope.md §7): ranges, and splitting a pattern into bytes and back. -/

namespace Sys2Proof

theorem s16_lower (p : Word) : -32768 ≤ s16 p := by
  have := BitVec.le_toInt p
  simpa [s16] using this

theorem s16_upper (p : Word) : s16 p ≤ 32767 := by
  have := BitVec.toInt_lt (x := p)
  simp only [s16]
  omega

/-- The signed value of a pattern is representable. -/
theorem fitsS16_s16 (p : Word) : fitsS16 (s16 p) := ⟨s16_lower p, s16_upper p⟩

/-- The pattern of a representable integer has that integer as its signed value. -/
theorem s16_u16_of_fits {t : Int} (h : fitsS16 t) : s16 (u16 t) = t := by
  obtain ⟨h1, h2⟩ := h
  simp only [s16, u16, BitVec.toInt_ofInt, Int.bmod_def]
  omega

@[simp] theorem u16_s16 (p : Word) : u16 (s16 p) = p := by simp [u16, s16]

@[simp] theorem u16_toNat (p : Word) : u16 (p.toNat : Int) = p := by
  simp [u16]

@[simp] theorem u8_toNat (b : Byte) : u8 (b.toNat : Int) = b := by
  simp [u8]

/-- The byte of an integer is the integer modulo 256. -/
theorem u8_toNat_eq (v : Int) : ((u8 v).toNat : Int) = v % 256 := by
  simp only [u8, BitVec.toNat_ofInt]
  omega

/-- The pattern of an integer is the integer modulo 65536. -/
theorem u16_toNat_eq (v : Int) : ((u16 v).toNat : Int) = v % 65536 := by
  simp only [u16, BitVec.toNat_ofInt]
  omega

@[simp] theorem hiByte_bytesToWord (h l : Byte) : hiByte (bytesToWord h l) = h := by
  apply BitVec.eq_of_getLsbD_eq
  intro i hi
  have h1 : 8 + i < 16 := by omega
  simp [hiByte, bytesToWord, hi, h1]

@[simp] theorem loByte_bytesToWord (h l : Byte) : loByte (bytesToWord h l) = l := by
  apply BitVec.eq_of_getLsbD_eq
  intro i hi
  have h1 : i < 16 := by omega
  simp [loByte, bytesToWord, hi, h1]

@[simp] theorem bytesToWord_hiByte_loByte (p : Word) : bytesToWord (hiByte p) (loByte p) = p := by
  apply BitVec.eq_of_getLsbD_eq
  intro i hi
  simp only [bytesToWord, hiByte, loByte, BitVec.getLsbD_or, BitVec.getLsbD_shiftLeft, BitVec.getLsbD_setWidth,
    BitVec.getLsbD_extractLsb', BitVec.truncate_eq_setWidth]
  by_cases h : i < 8
  · simp [h, hi]
  · have h2 : i - 8 < 8 := by omega
    have h3 : 8 + (i - 8) = i := by omega
    simp [h, hi, h2, h3]
    omega

/-- The low byte of an integer's pattern is its byte. -/
theorem loByte_u16 (v : Int) : loByte (u16 v) = u8 v := by
  apply BitVec.eq_of_toNat_eq
  simp only [loByte, u16, u8, BitVec.extractLsb'_toNat, BitVec.toNat_ofInt]
  omega

end Sys2Proof
end

