-- ==== Sys2Proof/Laws/Decode.lean ====
section
/-! SUPPORT. The codec's pieces (spec/30_encoding.md): tables and their inverses, and what each fetch does with bytes that
are there, that are wrong, or that are missing. -/

namespace Sys2Proof

/-! ## Tables -/

@[simp] theorem Reg.ofCode_code (r : Reg) : Reg.ofCode r.code = some r := by cases r <;> rfl

theorem Reg.code_of_ofCode {c : Byte} {r : Reg} (h : Reg.ofCode c = some r) : r.code = c := by
  have := List.find?_some h
  simpa using this

theorem Op.number_of_ofNumber {n : Nat} {op : Op} (h : Op.ofNumber n = some op) : op.number = n := by
  have := List.find?_some h
  simpa using this

@[simp] theorem Op.ofNumber_number (op : Op) : Op.ofNumber op.number = some op := by cases op <;> rfl

/-- The opcode byte of a name and two kinds gives them back (R52). -/
theorem opcodeByte_fields (op : Op) (fa fb : Bool) :
    Op.ofByte (opcodeByte op fa fb) = some op ∧ flagA (opcodeByte op fa fb) = fa ∧ flagB (opcodeByte op fa fb) = fb ∧
      op.hasForm (opcodeByte op fa fb) = op.format.kinds.contains (fa, fb) := by
  cases op <;> cases fa <;> cases fb <;> decide

/-- R70's length for the opcode byte of a name and two kinds, by format. -/
theorem lengthOfOpcodeByte_opcodeByte (op : Op) {fa fb : Bool} (h : op.format.kinds.contains (fa, fb) = true) :
    lengthOfOpcodeByte (opcodeByte op fa fb) = op.format.bytes fa fb := by
  obtain ⟨h1, h2, h3, h4⟩ := opcodeByte_fields op fa fb
  simp only [lengthOfOpcodeByte, h1, h4, h, if_true, h2, h3]

/-- A byte with a legal form is the opcode byte of its name and kinds (R52, R69). -/
theorem opcodeByte_of_form {ob : Byte} {op : Op} (h : Op.ofByte ob = some op) (hf : op.hasForm ob = true) :
    opcodeByte op (flagA ob) (flagB ob) = ob ∧ op.format.kinds.contains (flagA ob, flagB ob) = true := by
  have hn : op.number = ob.toNat / 8 := Op.number_of_ofNumber h
  simp only [Op.hasForm, Bool.and_eq_true, Bool.not_eq_true'] at hf
  refine ⟨?_, hf.2⟩
  apply BitVec.eq_of_toNat_eq
  have h2 := hf.1
  have hlt := ob.isLt
  have e0 : (flagB ob).toNat = ob.toNat % 2 := by
    simp only [flagB, BitVec.getLsbD, Nat.testBit_zero]
    rcases Nat.mod_two_eq_zero_or_one ob.toNat with h | h <;> simp [h]
  have e1 : (flagA ob).toNat = ob.toNat / 2 % 2 := by
    simp only [flagA, BitVec.getLsbD, Nat.testBit_succ, Nat.testBit_zero]
    rcases Nat.mod_two_eq_zero_or_one (ob.toNat / 2) with h | h <;> simp [h]
  have e2 : ob.toNat / 4 % 2 = 0 := by
    simp only [BitVec.getLsbD, Nat.testBit_succ, Nat.testBit_zero, Nat.div_div_eq_div_mul] at h2
    rcases Nat.mod_two_eq_zero_or_one (ob.toNat / 4) with h | h
    · exact h
    · simp [h] at h2
  simp only [opcodeByte, BitVec.toNat_ofNat, e0, e1, hn]
  omega

/-! ## Fetching operands that are there -/

@[simp] theorem Cursor.fetch_cons (p : Nat) (b : Byte) (rest : List Byte) :
    Cursor.fetch ⟨p, b :: rest⟩ = .ok (b, ⟨p + 1, rest⟩) := rfl

@[simp] theorem Cursor.fetch_nil (p : Nat) : Cursor.fetch ⟨p, []⟩ = .error (.truncatedStream p) := rfl

@[simp] theorem Cursor.getReg_code (p : Nat) (r : Reg) (rest : List Byte) :
    Cursor.getReg ⟨p, r.code :: rest⟩ = .ok (r, ⟨p + 1, rest⟩) := by
  simp [Cursor.getReg, bind, Except.bind]

@[simp] theorem Cursor.getImm_bytes (p : Nat) (h l : Byte) (rest : List Byte) :
    Cursor.getImm ⟨p, h :: l :: rest⟩ = .ok (bytesToWord h l, ⟨p + 2, rest⟩) := rfl

/-- An operand's own payload reads back as that operand (R60, R62). -/
@[simp] theorem Cursor.getOperand_payload (p : Nat) (a : Operand) (rest : List Byte) :
    Cursor.getOperand a.isRegister ⟨p, a.payload ++ rest⟩ = .ok (a, ⟨p + a.payload.length, rest⟩) := by
  cases a <;> simp [Cursor.getOperand, Operand.isRegister, Operand.payload, bind, Except.bind]

/-! ## What a successful fetch says about the bytes -/

theorem Cursor.fetch_ok {c c' : Cursor} {b : Byte} (h : c.fetch = .ok (b, c')) :
    c.bytes = b :: c'.bytes ∧ c'.addr = c.addr + 1 := by
  obtain ⟨p, bytes⟩ := c
  cases bytes with
  | nil => cases h
  | cons x rest => cases h; exact ⟨rfl, rfl⟩

theorem Cursor.getReg_ok {c c' : Cursor} {r : Reg} (h : c.getReg = .ok (r, c')) :
    c.bytes = r.code :: c'.bytes ∧ c'.addr = c.addr + 1 := by
  simp only [Cursor.getReg, bind, Except.bind] at h
  cases hf : c.fetch with
  | error e => rw [hf] at h; cases h
  | ok bc =>
    obtain ⟨b, c''⟩ := bc
    rw [hf] at h
    cases ho : Reg.ofCode b with
    | none => simp only [ho] at h; cases h
    | some r' =>
      simp only [ho] at h
      cases h
      rw [Reg.code_of_ofCode ho]
      exact Cursor.fetch_ok hf

theorem Cursor.getImm_ok {c c' : Cursor} {k : Word} (h : c.getImm = .ok (k, c')) :
    c.bytes = hiByte k :: loByte k :: c'.bytes ∧ c'.addr = c.addr + 2 := by
  obtain ⟨p, bytes⟩ := c
  cases bytes with
  | nil => cases h
  | cons x rest =>
    cases rest with
    | nil => cases h
    | cons y rest =>
      cases h
      simp

theorem Cursor.getOperand_ok {c c' : Cursor} {f : Bool} {a : Operand} (h : c.getOperand f = .ok (a, c')) :
    a.isRegister = f ∧ c.bytes = a.payload ++ c'.bytes ∧ c'.addr = c.addr + a.payload.length := by
  cases f with
  | true =>
    simp only [Cursor.getOperand, if_true, bind, Except.bind] at h
    cases hr : c.getReg with
    | error e => rw [hr] at h; cases h
    | ok rc =>
      rw [hr] at h
      cases h
      exact ⟨rfl, Cursor.getReg_ok hr⟩
  | false =>
    simp only [Cursor.getOperand, Bool.false_eq_true, if_false, bind, Except.bind] at h
    cases hr : c.getImm with
    | error e => rw [hr] at h; cases h
    | ok kc =>
      rw [hr] at h
      cases h
      exact ⟨rfl, Cursor.getImm_ok hr⟩

/-! ## What a failed fetch says about the bytes -/

/-- An error of an operand fetch that starts at `c` and takes at most `n` bytes: truncation where the bytes end, before the
`n`-th; or a byte among the first `n` that is no register code. -/
def FetchError (n : Nat) (c : Cursor) (e : DecodeError) : Prop :=
  (c.bytes.length < n ∧ e = .truncatedStream (c.addr + c.bytes.length)) ∨
    ∃ (k : Nat) (b : Byte), k < n ∧ c.bytes[k]? = some b ∧ Reg.ofCode b = none ∧ e = .invalidRegisterCode b (c.addr + k)

theorem FetchError.mono {n n' : Nat} {c : Cursor} {e : DecodeError} (hn : n ≤ n') (h : FetchError n c e) :
    FetchError n' c e := by
  rcases h with ⟨h1, h2⟩ | ⟨k, b, hk, h⟩
  · exact .inl ⟨by omega, h2⟩
  · exact .inr ⟨k, b, by omega, h⟩

theorem Cursor.getReg_error {c : Cursor} {e : DecodeError} (h : c.getReg = .error e) : FetchError 1 c e := by
  obtain ⟨p, bytes⟩ := c
  cases bytes with
  | nil => cases h; exact .inl ⟨Nat.zero_lt_one, rfl⟩
  | cons x rest =>
    simp only [Cursor.getReg, Cursor.fetch_cons, bind, Except.bind] at h
    cases ho : Reg.ofCode x with
    | none => rw [ho] at h; cases h; exact .inr ⟨0, x, Nat.zero_lt_one, rfl, ho, rfl⟩
    | some r => rw [ho] at h; cases h

theorem Cursor.getImm_error {c : Cursor} {e : DecodeError} (h : c.getImm = .error e) : FetchError 2 c e := by
  obtain ⟨p, bytes⟩ := c
  cases bytes with
  | nil => cases h; exact .inl ⟨Nat.zero_lt_two, rfl⟩
  | cons x rest =>
    cases rest with
    | nil => cases h; exact .inl ⟨Nat.one_lt_two, rfl⟩
    | cons y rest => cases h

theorem Cursor.getOperand_error {c : Cursor} {f : Bool} {e : DecodeError} (h : c.getOperand f = .error e) :
    FetchError 2 c e := by
  cases f with
  | true =>
    simp only [Cursor.getOperand, if_true, bind, Except.bind] at h
    cases hr : c.getReg with
    | error e' => rw [hr] at h; cases h; exact (Cursor.getReg_error hr).mono (by omega)
    | ok rc => rw [hr] at h; cases h
  | false =>
    simp only [Cursor.getOperand, Bool.false_eq_true, if_false, bind, Except.bind] at h
    cases hr : c.getImm with
    | error e' => rw [hr] at h; cases h; exact Cursor.getImm_error hr
    | ok rc => rw [hr] at h; cases h

theorem payload_length (a : Operand) : 1 ≤ a.payload.length ∧ a.payload.length ≤ 2 := by
  cases a
  · exact ⟨Nat.le_of_ble_eq_true rfl, Nat.le_of_ble_eq_true rfl⟩
  · exact ⟨Nat.le_of_ble_eq_true rfl, Nat.le_of_ble_eq_true rfl⟩

/-- A fetch error after an operand was fetched is a fetch error of the whole. -/
theorem FetchError.of_rest {n : Nat} {c c' : Cursor} {a : Operand} {e : DecodeError}
    (hb : c.bytes = a.payload ++ c'.bytes) (ha : c'.addr = c.addr + a.payload.length) (h : FetchError n c' e) :
    FetchError (n + 2) c e := by
  have hl := payload_length a
  rcases h with ⟨hn, h⟩ | ⟨k, b, hn, hk, ho, h⟩
  · left
    rw [h, hb, ha, List.length_append]
    refine ⟨by omega, ?_⟩
    congr 1
    omega
  · right
    refine ⟨a.payload.length + k, b, by omega, ?_, ho, ?_⟩
    · rw [hb, List.getElem?_append_right (by omega)]
      simpa using hk
    · rw [h, ha]
      congr 1
      omega

/-! ## The operands of an opcode byte -/

/-- What fetching the operands of `op` with kinds `fa`, `fb` can answer. -/
def OperandsAnswer (op : Op) (fa fb : Bool) (c : Cursor) (x : Except DecodeError (Instr × Cursor)) : Prop :=
  (∃ i c', x = .ok (i, c') ∧ i.op = op ∧ (op.format.kinds.contains (fa, fb) = true → i.fa = fa ∧ i.fb = fb) ∧
    c.bytes = i.payload ++ c'.bytes ∧ c'.addr = c.addr + i.payload.length) ∨
  ∃ e, x = .error e ∧ FetchError 4 c e

theorem twoOperands_answer {op : Op} (mk : Operand → Operand → Instr) (fa fb : Bool) (c : Cursor)
    (h : ∀ a b, (mk a b).op = op ∧ (mk a b).payload = a.payload ++ b.payload ∧ (mk a b).fa = a.isRegister ∧
      (mk a b).fb = b.isRegister) : OperandsAnswer op fa fb c (c.twoOperands mk fa fb) := by
  simp only [Cursor.twoOperands, bind, Except.bind]
  cases ha : c.getOperand fa with
  | error e => exact .inr ⟨e, rfl, (Cursor.getOperand_error ha).mono (by omega)⟩
  | ok ac =>
    obtain ⟨a, c1⟩ := ac
    obtain ⟨ha1, ha2, ha3⟩ := Cursor.getOperand_ok ha
    cases hb : c1.getOperand fb with
    | error e => exact .inr ⟨e, by simp only [hb], (Cursor.getOperand_error hb).of_rest ha2 ha3⟩
    | ok bc =>
      obtain ⟨b, c2⟩ := bc
      obtain ⟨hb1, hb2, hb3⟩ := Cursor.getOperand_ok hb
      obtain ⟨h1, h2, h3, h4⟩ := h a b
      refine .inl ⟨mk a b, c2, by simp only [hb], h1, fun _ => ⟨by rw [h3, ha1], by rw [h4, hb1]⟩, ?_, ?_⟩
      · rw [h2, ha2, hb2, List.append_assoc]
      · rw [h2, hb3, ha3, List.length_append]; omega

theorem operandReg_answer {op : Op} (mk : Operand → Reg → Instr) (fa fb : Bool) (c : Cursor)
    (h : ∀ a r, (mk a r).op = op ∧ (mk a r).payload = a.payload ++ [r.code] ∧ (mk a r).fa = a.isRegister ∧
      (mk a r).fb = true) (hk : op.format.kinds.contains (fa, fb) = true → fb = true) :
    OperandsAnswer op fa fb c (c.operandReg mk fa) := by
  simp only [Cursor.operandReg, bind, Except.bind]
  cases ha : c.getOperand fa with
  | error e => exact .inr ⟨e, rfl, (Cursor.getOperand_error ha).mono (by omega)⟩
  | ok ac =>
    obtain ⟨a, c1⟩ := ac
    obtain ⟨ha1, ha2, ha3⟩ := Cursor.getOperand_ok ha
    cases hb : c1.getReg with
    | error e => exact .inr ⟨e, by simp only [hb], ((Cursor.getReg_error hb).of_rest ha2 ha3).mono (by omega)⟩
    | ok bc =>
      obtain ⟨r, c2⟩ := bc
      obtain ⟨hb2, hb3⟩ := Cursor.getReg_ok hb
      obtain ⟨h1, h2, h3, h4⟩ := h a r
      refine .inl ⟨mk a r, c2, by simp only [hb], h1, fun hc => ⟨by rw [h3, ha1], by rw [h4, hk hc]⟩, ?_, ?_⟩
      · rw [h2, ha2, hb2, List.append_assoc]; rfl
      · rw [h2, hb3, ha3, List.length_append]; simp only [List.length_cons, List.length_nil]; omega

theorem soleOperand_answer {op : Op} (mk : Operand → Instr) (fa fb : Bool) (c : Cursor)
    (h : ∀ a, (mk a).op = op ∧ (mk a).payload = a.payload ∧ (mk a).fa = a.isRegister ∧ (mk a).fb = false)
    (hk : op.format.kinds.contains (fa, fb) = true → fb = false) :
    OperandsAnswer op fa fb c (c.soleOperand mk fa) := by
  simp only [Cursor.soleOperand, bind, Except.bind]
  cases ha : c.getOperand fa with
  | error e => exact .inr ⟨e, rfl, (Cursor.getOperand_error ha).mono (by omega)⟩
  | ok ac =>
    obtain ⟨a, c1⟩ := ac
    obtain ⟨ha1, ha2, ha3⟩ := Cursor.getOperand_ok ha
    obtain ⟨h1, h2, h3, h4⟩ := h a
    exact .inl ⟨mk a, c1, rfl, h1, fun hc => ⟨by rw [h3, ha1], by rw [h4, hk hc]⟩, by rw [h2, ha2], by rw [h2, ha3]⟩

theorem soleReg_answer {op : Op} (mk : Reg → Instr) (fa fb : Bool) (c : Cursor)
    (h : ∀ r, (mk r).op = op ∧ (mk r).payload = [r.code] ∧ (mk r).fa = false ∧ (mk r).fb = true)
    (hk : op.format.kinds.contains (fa, fb) = true → fa = false ∧ fb = true) :
    OperandsAnswer op fa fb c (c.soleReg mk) := by
  simp only [Cursor.soleReg, bind, Except.bind]
  cases hr : c.getReg with
  | error e => exact .inr ⟨e, rfl, (Cursor.getReg_error hr).mono (by omega)⟩
  | ok rc =>
    obtain ⟨r, c1⟩ := rc
    obtain ⟨hr2, hr3⟩ := Cursor.getReg_ok hr
    obtain ⟨h1, h2, h3, h4⟩ := h r
    exact .inl ⟨mk r, c1, rfl, h1, fun hc => ⟨by rw [h3, (hk hc).1], by rw [h4, (hk hc).2]⟩, by rw [h2, hr2]; rfl,
      by rw [h2, hr3]; rfl⟩

/-- Everything fetching the operands of an opcode byte can answer (R62): an instruction of that name and those kinds whose
payload stands at the cursor, or an error within four bytes. -/
theorem decodeOperands_answer (op : Op) (fa fb : Bool) (c : Cursor) :
    OperandsAnswer op fa fb c (decodeOperands op fa fb c) := by
  cases op with
  | load => exact twoOperands_answer _ fa fb c (fun _ _ => ⟨rfl, rfl, rfl, rfl⟩)
  | sum => exact operandReg_answer _ fa fb c (fun _ _ => ⟨rfl, rfl, rfl, rfl⟩) (by cases fa <;> cases fb <;> decide)
  | sub => exact operandReg_answer _ fa fb c (fun _ _ => ⟨rfl, rfl, rfl, rfl⟩) (by cases fa <;> cases fb <;> decide)
  | mul => exact operandReg_answer _ fa fb c (fun _ _ => ⟨rfl, rfl, rfl, rfl⟩) (by cases fa <;> cases fb <;> decide)
  | div => exact operandReg_answer _ fa fb c (fun _ _ => ⟨rfl, rfl, rfl, rfl⟩) (by cases fa <;> cases fb <;> decide)
  | and => exact operandReg_answer _ fa fb c (fun _ _ => ⟨rfl, rfl, rfl, rfl⟩) (by cases fa <;> cases fb <;> decide)
  | or => exact operandReg_answer _ fa fb c (fun _ _ => ⟨rfl, rfl, rfl, rfl⟩) (by cases fa <;> cases fb <;> decide)
  | xor => exact operandReg_answer _ fa fb c (fun _ _ => ⟨rfl, rfl, rfl, rfl⟩) (by cases fa <;> cases fb <;> decide)
  | shr => exact operandReg_answer _ fa fb c (fun _ _ => ⟨rfl, rfl, rfl, rfl⟩) (by cases fa <;> cases fb <;> decide)
  | shl => exact operandReg_answer _ fa fb c (fun _ _ => ⟨rfl, rfl, rfl, rfl⟩) (by cases fa <;> cases fb <;> decide)
  | cmp => exact operandReg_answer _ fa fb c (fun _ _ => ⟨rfl, rfl, rfl, rfl⟩) (by cases fa <;> cases fb <;> decide)
  | not => exact soleReg_answer _ fa fb c (fun _ => ⟨rfl, rfl, rfl, rfl⟩) (by cases fa <;> cases fb <;> decide)
  | jmp => exact soleOperand_answer _ fa fb c (fun _ => ⟨rfl, rfl, rfl, rfl⟩) (by cases fa <;> cases fb <;> decide)
  | jeq => exact soleOperand_answer _ fa fb c (fun _ => ⟨rfl, rfl, rfl, rfl⟩) (by cases fa <;> cases fb <;> decide)
  | jne => exact soleOperand_answer _ fa fb c (fun _ => ⟨rfl, rfl, rfl, rfl⟩) (by cases fa <;> cases fb <;> decide)
  | jgt => exact soleOperand_answer _ fa fb c (fun _ => ⟨rfl, rfl, rfl, rfl⟩) (by cases fa <;> cases fb <;> decide)
  | jlt => exact soleOperand_answer _ fa fb c (fun _ => ⟨rfl, rfl, rfl, rfl⟩) (by cases fa <;> cases fb <;> decide)
  | push => exact soleOperand_answer _ fa fb c (fun _ => ⟨rfl, rfl, rfl, rfl⟩) (by cases fa <;> cases fb <;> decide)
  | pop => exact soleReg_answer _ fa fb c (fun _ => ⟨rfl, rfl, rfl, rfl⟩) (by cases fa <;> cases fb <;> decide)

/-- The operands of an instruction, standing at the cursor, are fetched as that instruction (R60, R62). -/
theorem decodeOperands_payload (i : Instr) (p : Nat) (rest : List Byte) :
    decodeOperands i.op i.fa i.fb ⟨p, i.payload ++ rest⟩ = .ok (i, ⟨p + i.payload.length, rest⟩) := by
  have two : ∀ (mk : Operand → Operand → Instr) (a b : Operand),
      Cursor.twoOperands mk a.isRegister b.isRegister ⟨p, (a.payload ++ b.payload) ++ rest⟩ =
        .ok (mk a b, ⟨p + (a.payload ++ b.payload).length, rest⟩) := by
    intro mk a b
    simp only [Cursor.twoOperands, List.append_assoc, Cursor.getOperand_payload, bind, Except.bind, List.length_append,
      Nat.add_assoc]
  have one : ∀ (mk : Operand → Reg → Instr) (a : Operand) (r : Reg),
      Cursor.operandReg mk a.isRegister ⟨p, (a.payload ++ [r.code]) ++ rest⟩ =
        .ok (mk a r, ⟨p + (a.payload ++ [r.code]).length, rest⟩) := by
    intro mk a r
    simp only [Cursor.operandReg, List.append_assoc, List.singleton_append, Cursor.getOperand_payload, Cursor.getReg_code,
      bind, Except.bind, List.length_append, List.length_cons, List.length_nil, Nat.add_assoc]
  have soleA : ∀ (mk : Operand → Instr) (a : Operand),
      Cursor.soleOperand mk a.isRegister ⟨p, a.payload ++ rest⟩ = .ok (mk a, ⟨p + a.payload.length, rest⟩) := by
    intro mk a
    simp only [Cursor.soleOperand, Cursor.getOperand_payload, bind, Except.bind]
  have soleB : ∀ (mk : Reg → Instr) (r : Reg),
      Cursor.soleReg mk ⟨p, [r.code] ++ rest⟩ = .ok (mk r, ⟨p + [r.code].length, rest⟩) := by
    intro mk r
    simp only [Cursor.soleReg, List.singleton_append, Cursor.getReg_code, bind, Except.bind, List.length_cons,
      List.length_nil, Nat.zero_add]
  cases i with
  | load a b => exact two _ a b
  | sum a r => exact one _ a r
  | sub a r => exact one _ a r
  | mul a r => exact one _ a r
  | div a r => exact one _ a r
  | and a r => exact one _ a r
  | or a r => exact one _ a r
  | xor a r => exact one _ a r
  | shr a r => exact one _ a r
  | shl a r => exact one _ a r
  | cmp a r => exact one _ a r
  | not r => exact soleB _ r
  | jmp a => exact soleA _ a
  | jeq a => exact soleA _ a
  | jne a => exact soleA _ a
  | jgt a => exact soleA _ a
  | jlt a => exact soleA _ a
  | push a => exact soleA _ a
  | pop r => exact soleB _ r

/-! ## A whole decode -/

/-- Everything a decode of at least one byte can answer (R62, R67): no opcode number; no form; an instruction whose stream
form stands there; or an error in its operand bytes. -/
theorem decodeStream_cases (off : Nat) (ob : Byte) (rest : List Byte) :
    (Op.ofByte ob = none ∧ decodeStream off (ob :: rest) = .error (.unknownOpcode ob off)) ∨
    ∃ op, Op.ofByte ob = some op ∧
      ((op.hasForm ob = false ∧ decodeStream off (ob :: rest) = .error (.reservedForm ob off)) ∨
        (op.hasForm ob = true ∧
          ((∃ i tail, decodeStream off (ob :: rest) = .ok (i, 1 + i.payload.length) ∧
              encodeStream i = .ok (ob :: i.payload) ∧ i.op = op ∧ rest = i.payload ++ tail) ∨
            ∃ e, decodeStream off (ob :: rest) = .error e ∧ FetchError 4 ⟨off + 1, rest⟩ e))) := by
  simp only [decodeStream, Cursor.fetch_cons, bind, Except.bind]
  cases ho : Op.ofByte ob with
  | none => exact .inl ⟨rfl, rfl⟩
  | some op =>
    refine .inr ⟨op, rfl, ?_⟩
    cases hf : op.hasForm ob with
    | false => exact .inl ⟨rfl, by simp only [hf, Bool.false_eq_true, if_false]⟩
    | true =>
      refine .inr ⟨rfl, ?_⟩
      obtain ⟨hob, hk⟩ := opcodeByte_of_form ho hf
      rcases decodeOperands_answer op (flagA ob) (flagB ob) ⟨off + 1, rest⟩ with ⟨i, c', h, h1, h2, h3, h4⟩ | ⟨e, h, he⟩
      · obtain ⟨h5, h6⟩ := h2 hk
        refine .inl ⟨i, c'.bytes, ?_, ?_, h1, h3⟩
        · simp only [hf, h, if_true]
          rw [h4, show off + 1 + i.payload.length - off = 1 + i.payload.length by omega]
        · unfold encodeStream
          rw [h1, h5, h6, if_pos hk, hob]
      · exact .inr ⟨e, by simp only [hf, h, if_true], he⟩

end Sys2Proof
end

