-- ==== Sys2Proof/Laws/Memory.lean ====
section
/-! SUPPORT. Memory (spec/20_memory.md): read after write, what each accessor answers, and that every operation keeps the
canonical form. -/

namespace Sys2Proof.Machine

/-! ## One byte -/

/-- An address below every cell reads as the fill. -/
theorem cellAt_of_lt : ∀ (cells : List Host.Cell) {lo hi a : Nat}, cellsOk lo hi cells = true → a < lo →
    cellAt cells a = Settings.memoryFill := by
  intro cells
  induction cells with
  | nil => intros; rfl
  | cons c rest ih =>
    intro lo hi a h hlt
    obtain ⟨k, v⟩ := c
    simp only [cellsOk, Bool.and_eq_true, decide_eq_true_eq] at h
    have hk : k ≠ a := by omega
    simp only [cellAt, hk, if_false]
    exact ih h.2 (by omega)

theorem cellAt_putCell_same (cells : List Host.Cell) (a : Nat) (b : Byte) :
    ∀ {lo hi : Nat}, cellsOk lo hi cells = true → cellAt (putCell cells a b) a = b := by
  induction cells with
  | nil =>
    intro lo hi _
    by_cases hb : b = Settings.memoryFill <;> simp [putCell, hb, cellAt]
  | cons c rest ih =>
    intro lo hi h
    obtain ⟨k, v⟩ := c
    simp only [cellsOk, Bool.and_eq_true, decide_eq_true_eq] at h
    simp only [putCell]
    split
    · rename_i hlt
      split
      · rename_i hb
        have hk : k ≠ a := by omega
        simp only [cellAt, hk, if_false, hb]
        exact cellAt_of_lt rest h.2 (by omega)
      · simp [cellAt]
    · split
      · rename_i heq
        split
        · rename_i hb
          rw [hb]
          exact cellAt_of_lt rest h.2 (by omega)
        · simp [cellAt]
      · rename_i hne
        have hk : k ≠ a := fun e => hne e.symm
        simp only [cellAt, hk, if_false]
        exact ih h.2

theorem cellAt_putCell_other (cells : List Host.Cell) {a x : Nat} (b : Byte) (hne : x ≠ a) :
    cellAt (putCell cells a b) x = cellAt cells x := by
  have hax : a ≠ x := fun e => hne e.symm
  induction cells with
  | nil => by_cases hb : b = Settings.memoryFill <;> simp [putCell, hb, cellAt, hax]
  | cons c rest ih =>
    obtain ⟨k, v⟩ := c
    simp only [putCell]
    split
    · split <;> simp [cellAt, hax]
    · split
      · rename_i heq
        subst heq
        split <;> simp [cellAt, hax]
      · simp only [cellAt, ih]

theorem cellsOk_putCell (cells : List Host.Cell) {a : Nat} (b : Byte) :
    ∀ {lo hi : Nat}, cellsOk lo hi cells = true → lo ≤ a → a < hi → cellsOk lo hi (putCell cells a b) = true := by
  have lower : ∀ (cs : List Host.Cell) (lo lo' hi : Nat), cellsOk lo hi cs = true → lo' ≤ lo →
      cellsOk lo' hi cs = true := by
    intro cs lo lo' hi h hle
    cases cs with
    | nil => rfl
    | cons c rest =>
      obtain ⟨k, v⟩ := c
      simp only [cellsOk, Bool.and_eq_true, decide_eq_true_eq] at h ⊢
      exact ⟨⟨⟨by omega, h.1.1.2⟩, h.1.2⟩, h.2⟩
  induction cells with
  | nil =>
    intro lo hi _ h1 h2
    by_cases hb : b = Settings.memoryFill <;> simp [putCell, hb, cellsOk, h1, h2]
  | cons c rest ih =>
    intro lo hi h h1 h2
    obtain ⟨k, v⟩ := c
    simp only [cellsOk, Bool.and_eq_true, decide_eq_true_eq] at h
    simp only [putCell]
    split
    · split
      · simp only [cellsOk, Bool.and_eq_true, decide_eq_true_eq]; exact h
      · rename_i hlt hb
        simp only [cellsOk, Bool.and_eq_true, decide_eq_true_eq]
        exact ⟨⟨⟨h1, h2⟩, hb⟩, ⟨⟨by omega, h.1.1.2⟩, h.1.2⟩, h.2⟩
    · split
      · rename_i heq
        subst heq
        split
        · exact lower rest (a + 1) lo hi h.2 (by omega)
        · rename_i hb
          simp only [cellsOk, Bool.and_eq_true, decide_eq_true_eq]
          exact ⟨⟨⟨h1, h2⟩, hb⟩, h.2⟩
      · simp only [cellsOk, Bool.and_eq_true, decide_eq_true_eq]
        exact ⟨h.1, ih h.2 (by omega) h2⟩

@[simp] theorem Memory.setByte_size (m : Memory) (a : Nat) (b : Byte) : (m.setByte a b).size = m.size := rfl

/-- Reading the byte just written (R31, R32). -/
theorem Memory.byteAt_setByte_same {m : Memory} (h : m.wf = true) (a : Nat) (b : Byte) :
    (m.setByte a b).byteAt a = b := cellAt_putCell_same m.cells a b h

/-- A write changes no other byte (R32). -/
theorem Memory.byteAt_setByte_other (m : Memory) {a x : Nat} (b : Byte) (h : x ≠ a) :
    (m.setByte a b).byteAt x = m.byteAt x := cellAt_putCell_other m.cells b h

/-- A write in bounds keeps the canonical form. -/
theorem Memory.wf_setByte {m : Memory} (h : m.wf = true) {a : Nat} (b : Byte) (ha : a < m.size) :
    (m.setByte a b).wf = true := cellsOk_putCell m.cells b h (Nat.zero_le a) ha

/-- Canonical lists of cells that hold the same bytes are the same list. -/
theorem cells_ext : ∀ (c d : List Host.Cell) {lo hi : Nat}, cellsOk lo hi c = true → cellsOk lo hi d = true →
    (∀ a, cellAt c a = cellAt d a) → c = d := by
  intro c
  induction c with
  | nil =>
    intro d lo hi _ hd h
    cases d with
    | nil => rfl
    | cons e rest =>
      obtain ⟨k, v⟩ := e
      simp only [cellsOk, Bool.and_eq_true, decide_eq_true_eq] at hd
      have := h k
      simp only [cellAt, if_true] at this
      exact absurd this.symm hd.1.2
  | cons e rest ih =>
    intro d lo hi hc hd h
    obtain ⟨k, v⟩ := e
    simp only [cellsOk, Bool.and_eq_true, decide_eq_true_eq] at hc
    cases d with
    | nil =>
      have := h k
      simp only [cellAt, if_true] at this
      exact absurd this hc.1.2
    | cons e' rest' =>
      obtain ⟨k', v'⟩ := e'
      simp only [cellsOk, Bool.and_eq_true, decide_eq_true_eq] at hd
      rcases Nat.lt_trichotomy k k' with hlt | heq | hgt
      · have h1 := h k
        have hne : k' ≠ k := by omega
        simp only [cellAt, if_true, hne, if_false] at h1
        rw [cellAt_of_lt rest' hd.2 (by omega)] at h1
        exact absurd h1 hc.1.2
      · subst heq
        have h1 := h k
        simp only [cellAt, if_true] at h1
        subst h1
        have h2 : ∀ a, cellAt rest a = cellAt rest' a := by
          intro a
          by_cases ha : k = a
          · subst ha
            rw [cellAt_of_lt rest hc.2 (by omega), cellAt_of_lt rest' hd.2 (by omega)]
          · have := h a
            simpa only [cellAt, ha, if_false] using this
        rw [ih rest' hc.2 hd.2 h2]
      · have h1 := h k'
        have hne : k ≠ k' := by omega
        simp only [cellAt, if_true, hne, if_false] at h1
        rw [cellAt_of_lt rest hc.2 (by omega)] at h1
        exact absurd h1.symm hd.1.2

/-! ## A word -/

@[simp] theorem Memory.setWord_size (m : Memory) (a : Nat) (p : Word) : (m.setWord a p).size = m.size := rfl

theorem Memory.wf_setWord {m : Memory} (h : m.wf = true) {a : Nat} (p : Word) (ha : a + 2 ≤ m.size) :
    (m.setWord a p).wf = true :=
  Memory.wf_setByte (Memory.wf_setByte h _ (by omega)) _ (by rw [Memory.setByte_size]; omega)

theorem Memory.byteAt_setWord_first {m : Memory} (h : m.wf = true) (a : Nat) (p : Word) :
    (m.setWord a p).byteAt a = hiByte p := by
  simp only [Memory.setWord]
  rw [Memory.byteAt_setByte_other _ _ (by omega), Memory.byteAt_setByte_same h]

theorem Memory.byteAt_setWord_second {m : Memory} (h : m.wf = true) {a : Nat} (p : Word) (ha : a < m.size) :
    (m.setWord a p).byteAt (a + 1) = loByte p :=
  Memory.byteAt_setByte_same (Memory.wf_setByte h _ ha) _ _

theorem Memory.byteAt_setWord_other (m : Memory) {a x : Nat} (p : Word) (h : x < a ∨ a + 2 ≤ x) :
    (m.setWord a p).byteAt x = m.byteAt x := by
  simp only [Memory.setWord]
  rw [Memory.byteAt_setByte_other _ _ (by omega), Memory.byteAt_setByte_other _ _ (by omega)]

/-! ## Accessors: what each answers (R35, R37) -/

theorem Memory.load_w8 {m : Memory} {a : Nat} (h : a + 1 ≤ m.size) : m.load a .w8 = .ok (m.byteAt a).toNat := by
  simp [Memory.load, Memory.read, h, Except.map]

theorem Memory.load_w16 {m : Memory} {a : Nat} (h : a + 2 ≤ m.size) :
    m.load a .w16 = .ok (bytesToWord (m.byteAt a) (m.byteAt (a + 1))).toNat := by
  simp [Memory.load, Memory.read16, h, Except.map]

theorem Memory.load_error {m : Memory} {a : Nat} {w : Width} (h : ¬ a + accessBytes w ≤ m.size) :
    m.load a w = .error (.outOfBounds a (accessBytes w)) := by
  cases w <;> simp only [accessBytes] at h <;>
    simp [Memory.load, Memory.read, Memory.read16, h, Except.map, accessBytes]

theorem Memory.store_w8 {m : Memory} {a : Nat} (v : Int) (h : a + 1 ≤ m.size) :
    m.store a .w8 v = .ok (m.setByte a (u8 v)) := by
  simp [Memory.store, Memory.write, h]

theorem Memory.store_w16 {m : Memory} {a : Nat} (v : Int) (h : a + 2 ≤ m.size) :
    m.store a .w16 v = .ok (m.setWord a (u16 v)) := by
  simp [Memory.store, Memory.write16, h]

theorem Memory.store_error {m : Memory} {a : Nat} {w : Width} (v : Int) (h : ¬ a + accessBytes w ≤ m.size) :
    m.store a w v = .error (.outOfBounds a (accessBytes w)) := by
  cases w <;> simp only [accessBytes] at h <;> simp [Memory.store, Memory.write, Memory.write16, h, accessBytes]

/-- Everything a store can do: it is in bounds, changes only the bytes stored to, and keeps size and form; or it is out
of bounds. -/
theorem Memory.store_cases (m : Memory) (a : Nat) (w : Width) (v : Int) :
    (a + accessBytes w ≤ m.size ∧ ∃ m', m.store a w v = .ok m' ∧ m'.size = m.size ∧ (m.wf = true → m'.wf = true) ∧
      ∀ x, x < a ∨ a + accessBytes w ≤ x → m'.byteAt x = m.byteAt x) ∨
    (¬ a + accessBytes w ≤ m.size ∧ m.store a w v = .error (.outOfBounds a (accessBytes w))) := by
  by_cases h : a + accessBytes w ≤ m.size
  · refine .inl ⟨h, ?_⟩
    cases w with
    | w8 =>
      exact ⟨_, Memory.store_w8 v h, rfl, fun hw => Memory.wf_setByte hw _ h,
        fun x hx => Memory.byteAt_setByte_other m _ (by simp only [accessBytes] at hx; omega)⟩
    | w16 =>
      exact ⟨_, Memory.store_w16 v h, rfl, fun hw => Memory.wf_setWord hw _ h,
        fun x hx => Memory.byteAt_setWord_other m _ hx⟩
  · exact .inr ⟨h, Memory.store_error v h⟩

/-! ## Reset and placing bytes -/

theorem Memory.place_size (m : Memory) (image : List (Nat × Byte)) : (m.place image).size = m.size := by
  induction image generalizing m with
  | nil => rfl
  | cons c rest ih =>
    obtain ⟨a, b⟩ := c
    simp only [Memory.place, ih]
    split <;> rfl

theorem Memory.wf_place {m : Memory} (h : m.wf = true) (image : List (Nat × Byte)) : (m.place image).wf = true := by
  induction image generalizing m with
  | nil => exact h
  | cons c rest ih =>
    obtain ⟨a, b⟩ := c
    simp only [Memory.place]
    split
    · rename_i ha; exact ih (Memory.wf_setByte h b ha)
    · exact ih h

/-- A byte whose address the image does not name is not changed by placing it. -/
theorem Memory.byteAt_place_other (m : Memory) (image : List (Nat × Byte)) {x : Nat} (h : ∀ c ∈ image, c.1 ≠ x) :
    (m.place image).byteAt x = m.byteAt x := by
  induction image generalizing m with
  | nil => rfl
  | cons c rest ih =>
    obtain ⟨a, b⟩ := c
    have hax : x ≠ a := fun e => h (a, b) (by simp) e.symm
    have hrest : ∀ c ∈ rest, c.1 ≠ x := fun c hc => h c (by simp [hc])
    simp only [Memory.place]
    split
    · rw [ih _ hrest, Memory.byteAt_setByte_other _ _ hax]
    · exact ih _ hrest

theorem Memory.placeBytes_size (m : Memory) (a : Nat) (bytes : List Byte) : (m.placeBytes a bytes).size = m.size := by
  induction bytes generalizing m a with
  | nil => rfl
  | cons b rest ih =>
    simp only [Memory.placeBytes, ih]
    split <;> rfl

theorem Memory.wf_placeBytes {m : Memory} (h : m.wf = true) (a : Nat) (bytes : List Byte) :
    (m.placeBytes a bytes).wf = true := by
  induction bytes generalizing m a with
  | nil => exact h
  | cons b rest ih =>
    simp only [Memory.placeBytes]
    split
    · rename_i ha; exact ih (Memory.wf_setByte h b ha) _
    · exact ih h _

theorem Memory.wf_blank (n : Nat) : (Memory.blank n).wf = true := rfl

/-! ## The decoder's window -/

/-- Equal memories below the reach of a window give equal windows. -/
theorem Memory.window_congr {m m' : Memory} : ∀ (n a : Nat), (∀ x, a ≤ x → x < a + n → (x < m.size ↔ x < m'.size)) →
    (∀ x, a ≤ x → x < a + n → x < m.size → m.byteAt x = m'.byteAt x) → m.window a n = m'.window a n := by
  intro n
  induction n with
  | zero => intros; rfl
  | succ n ih =>
    intro a hs hb
    simp only [Memory.window]
    have h1 := hs a (Nat.le_refl a) (by omega)
    by_cases h : a < m.size
    · rw [if_pos h, if_pos (h1.mp h), hb a (Nat.le_refl a) (by omega) h,
        ih (a + 1) (fun x h2 h3 => hs x (by omega) (by omega)) (fun x h2 h3 h4 => hb x (by omega) (by omega) h4)]
    · rw [if_neg h, if_neg (fun h' => h (h1.mpr h'))]

/-- The bytes of a window: the byte at its address where memory has one, within the window's reach. -/
theorem Memory.window_getElem? (m : Memory) : ∀ (n a k : Nat),
    (m.window a n)[k]? = if k < n ∧ a + k < m.size then some (m.byteAt (a + k)) else none := by
  intro n
  induction n with
  | zero => intro a k; simp [Memory.window]
  | succ n ih =>
    intro a k
    simp only [Memory.window]
    by_cases h : a < m.size
    · rw [if_pos h]
      cases k with
      | zero => simp [h]
      | succ k =>
        rw [List.getElem?_cons_succ, ih]
        simp only [show a + 1 + k = a + (k + 1) by omega, Nat.add_lt_add_iff_right]
    · rw [if_neg h, if_neg (by omega)]
      rfl

/-- A window ends where memory ends. -/
theorem Memory.window_length (m : Memory) : ∀ (n a : Nat), (m.window a n).length = min n (m.size - a) := by
  intro n
  induction n with
  | zero => intro a; simp [Memory.window]
  | succ n ih =>
    intro a
    simp only [Memory.window]
    by_cases h : a < m.size
    · rw [if_pos h, List.length_cons, ih]; omega
    · rw [if_neg h, List.length_nil]; omega

end Sys2Proof.Machine
end

