-- ==== Sys2Proof/Laws/State.lean ====
section
/-! SUPPORT. One lemma per field and per update of State, true by definition, so that no proof unfolds an update. -/

namespace Sys2Proof.Machine

@[simp] theorem State.setFlags_wA (s : State) (v : Byte) : (s.setFlags v).wA = s.wA := rfl
@[simp] theorem State.setFlags_wB (s : State) (v : Byte) : (s.setFlags v).wB = s.wB := rfl
@[simp] theorem State.setFlags_wC (s : State) (v : Byte) : (s.setFlags v).wC = s.wC := rfl
@[simp] theorem State.setFlags_wD (s : State) (v : Byte) : (s.setFlags v).wD = s.wD := rfl
@[simp] theorem State.setFlags_flags (s : State) (v : Byte) : (s.setFlags v).flags = v := rfl
@[simp] theorem State.setFlags_pc (s : State) (v : Byte) : (s.setFlags v).pc = s.pc := rfl
@[simp] theorem State.setFlags_sp (s : State) (v : Byte) : (s.setFlags v).sp = s.sp := rfl
@[simp] theorem State.setFlags_sbase (s : State) (v : Byte) : (s.setFlags v).sbase = s.sbase := rfl
@[simp] theorem State.setFlags_ssize (s : State) (v : Byte) : (s.setFlags v).ssize = s.ssize := rfl
@[simp] theorem State.setFlags_mem (s : State) (v : Byte) : (s.setFlags v).mem = s.mem := rfl
@[simp] theorem State.setFlags_halt (s : State) (v : Byte) : (s.setFlags v).halt = s.halt := rfl
@[simp] theorem State.setFlags_acc (s : State) (v : Byte) (g : Acc) : (s.setFlags v).acc g = s.acc g := by cases g <;> rfl

@[simp] theorem State.setPc_wA (s : State) (v : Word) : (s.setPc v).wA = s.wA := rfl
@[simp] theorem State.setPc_wB (s : State) (v : Word) : (s.setPc v).wB = s.wB := rfl
@[simp] theorem State.setPc_wC (s : State) (v : Word) : (s.setPc v).wC = s.wC := rfl
@[simp] theorem State.setPc_wD (s : State) (v : Word) : (s.setPc v).wD = s.wD := rfl
@[simp] theorem State.setPc_flags (s : State) (v : Word) : (s.setPc v).flags = s.flags := rfl
@[simp] theorem State.setPc_pc (s : State) (v : Word) : (s.setPc v).pc = v := rfl
@[simp] theorem State.setPc_sp (s : State) (v : Word) : (s.setPc v).sp = s.sp := rfl
@[simp] theorem State.setPc_sbase (s : State) (v : Word) : (s.setPc v).sbase = s.sbase := rfl
@[simp] theorem State.setPc_ssize (s : State) (v : Word) : (s.setPc v).ssize = s.ssize := rfl
@[simp] theorem State.setPc_mem (s : State) (v : Word) : (s.setPc v).mem = s.mem := rfl
@[simp] theorem State.setPc_halt (s : State) (v : Word) : (s.setPc v).halt = s.halt := rfl
@[simp] theorem State.setPc_acc (s : State) (v : Word) (g : Acc) : (s.setPc v).acc g = s.acc g := by cases g <;> rfl

@[simp] theorem State.setSp_wA (s : State) (v : Word) : (s.setSp v).wA = s.wA := rfl
@[simp] theorem State.setSp_wB (s : State) (v : Word) : (s.setSp v).wB = s.wB := rfl
@[simp] theorem State.setSp_wC (s : State) (v : Word) : (s.setSp v).wC = s.wC := rfl
@[simp] theorem State.setSp_wD (s : State) (v : Word) : (s.setSp v).wD = s.wD := rfl
@[simp] theorem State.setSp_flags (s : State) (v : Word) : (s.setSp v).flags = s.flags := rfl
@[simp] theorem State.setSp_pc (s : State) (v : Word) : (s.setSp v).pc = s.pc := rfl
@[simp] theorem State.setSp_sp (s : State) (v : Word) : (s.setSp v).sp = v := rfl
@[simp] theorem State.setSp_sbase (s : State) (v : Word) : (s.setSp v).sbase = s.sbase := rfl
@[simp] theorem State.setSp_ssize (s : State) (v : Word) : (s.setSp v).ssize = s.ssize := rfl
@[simp] theorem State.setSp_mem (s : State) (v : Word) : (s.setSp v).mem = s.mem := rfl
@[simp] theorem State.setSp_halt (s : State) (v : Word) : (s.setSp v).halt = s.halt := rfl
@[simp] theorem State.setSp_acc (s : State) (v : Word) (g : Acc) : (s.setSp v).acc g = s.acc g := by cases g <;> rfl

@[simp] theorem State.setMem_wA (s : State) (m : Memory) : (s.setMem m).wA = s.wA := rfl
@[simp] theorem State.setMem_wB (s : State) (m : Memory) : (s.setMem m).wB = s.wB := rfl
@[simp] theorem State.setMem_wC (s : State) (m : Memory) : (s.setMem m).wC = s.wC := rfl
@[simp] theorem State.setMem_wD (s : State) (m : Memory) : (s.setMem m).wD = s.wD := rfl
@[simp] theorem State.setMem_flags (s : State) (m : Memory) : (s.setMem m).flags = s.flags := rfl
@[simp] theorem State.setMem_pc (s : State) (m : Memory) : (s.setMem m).pc = s.pc := rfl
@[simp] theorem State.setMem_sp (s : State) (m : Memory) : (s.setMem m).sp = s.sp := rfl
@[simp] theorem State.setMem_sbase (s : State) (m : Memory) : (s.setMem m).sbase = s.sbase := rfl
@[simp] theorem State.setMem_ssize (s : State) (m : Memory) : (s.setMem m).ssize = s.ssize := rfl
@[simp] theorem State.setMem_mem (s : State) (m : Memory) : (s.setMem m).mem = m := rfl
@[simp] theorem State.setMem_halt (s : State) (m : Memory) : (s.setMem m).halt = s.halt := rfl
@[simp] theorem State.setMem_acc (s : State) (m : Memory) (g : Acc) : (s.setMem m).acc g = s.acc g := by cases g <;> rfl

@[simp] theorem State.enterHalt_wA (s : State) (r : HaltReason) : (s.enterHalt r).wA = s.wA := rfl
@[simp] theorem State.enterHalt_wB (s : State) (r : HaltReason) : (s.enterHalt r).wB = s.wB := rfl
@[simp] theorem State.enterHalt_wC (s : State) (r : HaltReason) : (s.enterHalt r).wC = s.wC := rfl
@[simp] theorem State.enterHalt_wD (s : State) (r : HaltReason) : (s.enterHalt r).wD = s.wD := rfl
@[simp] theorem State.enterHalt_flags (s : State) (r : HaltReason) : (s.enterHalt r).flags = s.flags := rfl
@[simp] theorem State.enterHalt_pc (s : State) (r : HaltReason) : (s.enterHalt r).pc = s.pc := rfl
@[simp] theorem State.enterHalt_sp (s : State) (r : HaltReason) : (s.enterHalt r).sp = s.sp := rfl
@[simp] theorem State.enterHalt_sbase (s : State) (r : HaltReason) : (s.enterHalt r).sbase = s.sbase := rfl
@[simp] theorem State.enterHalt_ssize (s : State) (r : HaltReason) : (s.enterHalt r).ssize = s.ssize := rfl
@[simp] theorem State.enterHalt_mem (s : State) (r : HaltReason) : (s.enterHalt r).mem = s.mem := rfl
@[simp] theorem State.enterHalt_halt (s : State) (r : HaltReason) : (s.enterHalt r).halt = some r := rfl
@[simp] theorem State.enterHalt_acc (s : State) (r : HaltReason) (g : Acc) : (s.enterHalt r).acc g = s.acc g := by cases g <;> rfl

@[simp] theorem State.setAcc_flags (s : State) (g : Acc) (v : Word) : (s.setAcc g v).flags = s.flags := by cases g <;> rfl
@[simp] theorem State.setAcc_pc (s : State) (g : Acc) (v : Word) : (s.setAcc g v).pc = s.pc := by cases g <;> rfl
@[simp] theorem State.setAcc_sp (s : State) (g : Acc) (v : Word) : (s.setAcc g v).sp = s.sp := by cases g <;> rfl
@[simp] theorem State.setAcc_sbase (s : State) (g : Acc) (v : Word) : (s.setAcc g v).sbase = s.sbase := by cases g <;> rfl
@[simp] theorem State.setAcc_ssize (s : State) (g : Acc) (v : Word) : (s.setAcc g v).ssize = s.ssize := by cases g <;> rfl
@[simp] theorem State.setAcc_mem (s : State) (g : Acc) (v : Word) : (s.setAcc g v).mem = s.mem := by cases g <;> rfl
@[simp] theorem State.setAcc_halt (s : State) (g : Acc) (v : Word) : (s.setAcc g v).halt = s.halt := by cases g <;> rfl
@[simp] theorem State.setAcc_acc_same (s : State) (g : Acc) (v : Word) : (s.setAcc g v).acc g = v := by cases g <;> rfl
theorem State.setAcc_acc_of_ne (s : State) (v : Word) {g h : Acc} (hne : h ≠ g) : (s.setAcc g v).acc h = s.acc h := by
  cases g <;> cases h <;> first | rfl | exact absurd rfl hne

@[simp] theorem State.writeReg_flags (s : State) (r : Reg) (v : Int) : (s.writeReg r v).flags = s.flags := by simp [State.writeReg]
@[simp] theorem State.writeReg_pc (s : State) (r : Reg) (v : Int) : (s.writeReg r v).pc = s.pc := by simp [State.writeReg]
@[simp] theorem State.writeReg_sp (s : State) (r : Reg) (v : Int) : (s.writeReg r v).sp = s.sp := by simp [State.writeReg]
@[simp] theorem State.writeReg_sbase (s : State) (r : Reg) (v : Int) : (s.writeReg r v).sbase = s.sbase := by simp [State.writeReg]
@[simp] theorem State.writeReg_ssize (s : State) (r : Reg) (v : Int) : (s.writeReg r v).ssize = s.ssize := by simp [State.writeReg]
@[simp] theorem State.writeReg_mem (s : State) (r : Reg) (v : Int) : (s.writeReg r v).mem = s.mem := by simp [State.writeReg]
@[simp] theorem State.writeReg_halt (s : State) (r : Reg) (v : Int) : (s.writeReg r v).halt = s.halt := by simp [State.writeReg]

@[simp] theorem State.setFlag_wA (s : State) (f : Flag) : (s.setFlag f).wA = s.wA := rfl
@[simp] theorem State.setFlag_wB (s : State) (f : Flag) : (s.setFlag f).wB = s.wB := rfl
@[simp] theorem State.setFlag_wC (s : State) (f : Flag) : (s.setFlag f).wC = s.wC := rfl
@[simp] theorem State.setFlag_wD (s : State) (f : Flag) : (s.setFlag f).wD = s.wD := rfl
@[simp] theorem State.setFlag_pc (s : State) (f : Flag) : (s.setFlag f).pc = s.pc := rfl
@[simp] theorem State.setFlag_sp (s : State) (f : Flag) : (s.setFlag f).sp = s.sp := rfl
@[simp] theorem State.setFlag_sbase (s : State) (f : Flag) : (s.setFlag f).sbase = s.sbase := rfl
@[simp] theorem State.setFlag_ssize (s : State) (f : Flag) : (s.setFlag f).ssize = s.ssize := rfl
@[simp] theorem State.setFlag_mem (s : State) (f : Flag) : (s.setFlag f).mem = s.mem := rfl
@[simp] theorem State.setFlag_halt (s : State) (f : Flag) : (s.setFlag f).halt = s.halt := rfl
@[simp] theorem State.setFlag_acc (s : State) (f : Flag) (g : Acc) : (s.setFlag f).acc g = s.acc g := by cases g <;> rfl

@[simp] theorem State.advance_wA (s : State) (n : Nat) : (s.advance n).wA = s.wA := rfl
@[simp] theorem State.advance_wB (s : State) (n : Nat) : (s.advance n).wB = s.wB := rfl
@[simp] theorem State.advance_wC (s : State) (n : Nat) : (s.advance n).wC = s.wC := rfl
@[simp] theorem State.advance_wD (s : State) (n : Nat) : (s.advance n).wD = s.wD := rfl
@[simp] theorem State.advance_flags (s : State) (n : Nat) : (s.advance n).flags = s.flags := rfl
@[simp] theorem State.advance_sp (s : State) (n : Nat) : (s.advance n).sp = s.sp := rfl
@[simp] theorem State.advance_sbase (s : State) (n : Nat) : (s.advance n).sbase = s.sbase := rfl
@[simp] theorem State.advance_ssize (s : State) (n : Nat) : (s.advance n).ssize = s.ssize := rfl
@[simp] theorem State.advance_mem (s : State) (n : Nat) : (s.advance n).mem = s.mem := rfl
@[simp] theorem State.advance_halt (s : State) (n : Nat) : (s.advance n).halt = s.halt := rfl
@[simp] theorem State.advance_pc (s : State) (n : Nat) : (s.advance n).pc = s.pc + BitVec.ofNat 16 n := rfl
@[simp] theorem State.advance_acc (s : State) (n : Nat) (g : Acc) : (s.advance n).acc g = s.acc g := by cases g <;> rfl

/-! ## What a register reads as after each update -/

@[simp] theorem State.setFlags_readReg (s : State) (v : Byte) (q : Reg) : (s.setFlags v).readReg q = s.readReg q := by simp [State.readReg]
@[simp] theorem State.setPc_readReg (s : State) (v : Word) (q : Reg) : (s.setPc v).readReg q = s.readReg q := by simp [State.readReg]
@[simp] theorem State.setSp_readReg (s : State) (v : Word) (q : Reg) : (s.setSp v).readReg q = s.readReg q := by simp [State.readReg]
@[simp] theorem State.setMem_readReg (s : State) (m : Memory) (q : Reg) : (s.setMem m).readReg q = s.readReg q := by simp [State.readReg]
@[simp] theorem State.enterHalt_readReg (s : State) (r : HaltReason) (q : Reg) : (s.enterHalt r).readReg q = s.readReg q := by simp [State.readReg]
@[simp] theorem State.setFlag_readReg (s : State) (f : Flag) (q : Reg) : (s.setFlag f).readReg q = s.readReg q := by simp [State.readReg]
@[simp] theorem State.advance_readReg (s : State) (n : Nat) (q : Reg) : (s.advance n).readReg q = s.readReg q := by simp [State.readReg]

/-! ## What a flag reads as after each update -/

@[simp] theorem State.setPc_flag (s : State) (v : Word) (f : Flag) : (s.setPc v).flag f = s.flag f := rfl
@[simp] theorem State.setSp_flag (s : State) (v : Word) (f : Flag) : (s.setSp v).flag f = s.flag f := rfl
@[simp] theorem State.setMem_flag (s : State) (m : Memory) (f : Flag) : (s.setMem m).flag f = s.flag f := rfl
@[simp] theorem State.enterHalt_flag (s : State) (r : HaltReason) (f : Flag) : (s.enterHalt r).flag f = s.flag f := rfl
@[simp] theorem State.writeReg_flag (s : State) (r : Reg) (v : Int) (f : Flag) : (s.writeReg r v).flag f = s.flag f := by simp [State.flag]
@[simp] theorem State.advance_flag (s : State) (n : Nat) (f : Flag) : (s.advance n).flag f = s.flag f := rfl

/-- Setting a flag sets that one and no other (10_state.md R18). -/
@[simp] theorem State.setFlag_flag (s : State) (f g : Flag) : (s.setFlag f).flag g = (s.flag g || decide (g = f)) := by
  cases f <;> cases g <;> simp [State.setFlag, State.flag, flagMask, Flag.bit]

/-- Setting a flag leaves bits 7:5 of the flags register. -/
@[simp] theorem State.setFlag_reserved (s : State) (f : Flag) :
    (s.setFlag f).flags.extractLsb' 5 3 = s.flags.extractLsb' 5 3 := by
  have h : (flagMask f).extractLsb' 5 3 = 0#3 := by cases f <;> decide
  simp only [State.setFlag, State.setFlags_flags, BitVec.extractLsb'_or, h, BitVec.or_zero]

end Sys2Proof.Machine
end

