-- ==== Sys2Proof/Laws/Registers.lean ====
section
/-! SUPPORT. The register accessors (10_state.md R13 to R15): what a write leaves in each part, and in every other name. -/

namespace Sys2Proof.Machine

theorem loByte_partWrite_high (w : Word) (v : Int) : loByte (partWrite .high w v) = loByte w := by
  apply BitVec.eq_of_getLsbD_eq
  intro i hi
  have h16 : i < 16 := by omega
  have : (0x00FF#16).getLsbD i = true := by
    interval_cases i <;> rfl
  simp [loByte, partWrite, hi, this]

theorem hiByte_partWrite_high (w : Word) (v : Int) : hiByte (partWrite .high w v) = u8 v := by
  apply BitVec.eq_of_getLsbD_eq
  intro i hi
  have : (0x00FF#16).getLsbD (8 + i) = false := by
    interval_cases i <;> rfl
  have h1 : 8 + i < 16 := by omega
  rw [BitVec.getLsbD_eq_getElem h1] at this
  simp [hiByte, partWrite, hi, this, h1]

theorem hiByte_partWrite_low (w : Word) (v : Int) : hiByte (partWrite .low w v) = hiByte w := by
  apply BitVec.eq_of_getLsbD_eq
  intro i hi
  have : (0xFF00#16).getLsbD (8 + i) = true := by
    interval_cases i <;> rfl
  simp [hiByte, partWrite, hi, this]

theorem loByte_partWrite_low (w : Word) (v : Int) : loByte (partWrite .low w v) = u8 v := by
  apply BitVec.eq_of_getLsbD_eq
  intro i hi
  have : (0xFF00#16).getLsbD i = false := by
    interval_cases i <;> rfl
  have h1 : i < 16 := by omega
  rw [BitVec.getLsbD_eq_getElem h1] at this
  simp [loByte, partWrite, hi, this, h1]

/-- A part reads as what was written to it, reduced to its width. -/
theorem partValue_partWrite (p : Part) (w : Word) (v : Int) :
    partValue p (partWrite p w v) = storedValue (match p with | .whole => .w16 | .high => .w8 | .low => .w8) v := by
  cases p
  · rfl
  · simp [partValue, hiByte_partWrite_high, aliasValue, Settings.aliasRead, storedValue, u8_toNat_eq]
  · simp [partValue, loByte_partWrite_low, aliasValue, Settings.aliasRead, storedValue, u8_toNat_eq]

/-- `x[r]` after `x[r] <- v` (R13, R14). -/
@[simp] theorem State.readReg_writeReg_same (s : State) (r : Reg) (v : Int) :
    (s.writeReg r v).readReg r = storedValue (regWidth r) v := by
  simp only [State.readReg, State.writeReg, State.setAcc_acc_same, partValue_partWrite]
  cases r <;> rfl

/-- Writing a name leaves every name that shares no storage with it (R14, R15). -/
theorem State.readReg_writeReg_other (s : State) (v : Int) {q r : Reg} (h : Reg.overlaps q r = false) :
    (s.writeReg r v).readReg q = s.readReg q := by
  simp only [State.readReg, State.writeReg]
  by_cases hacc : regAcc q = regAcc r
  · rw [hacc, State.setAcc_acc_same]
    revert h
    cases q <;> cases r <;>
      simp_all [Reg.overlaps, regAcc, regPart, partValue, loByte_partWrite_high, hiByte_partWrite_low]
  · rw [State.setAcc_acc_of_ne s _ hacc]

theorem sameRegsBut_writeReg (s : State) (r : Reg) (v : Int) : SameRegsBut r s (s.writeReg r v) :=
  fun _ h => s.readReg_writeReg_other v h

/-- `x[r]` lies in the range of its width (R13). -/
theorem State.readReg_range (s : State) (r : Reg) :
    match regWidth r with
    | .w16 => fitsS16 (s.readReg r)
    | .w8 => 0 ≤ s.readReg r ∧ s.readReg r ≤ 255 := by
  have hb : ∀ b : Byte, (0 : Int) ≤ (b.toNat : Int) ∧ (b.toNat : Int) ≤ 255 := fun b => by
    have := b.isLt; omega
  simp only [State.readReg]
  cases r <;> simp only [regWidth, regPart, partValue, aliasValue, Settings.aliasRead] <;>
    first | exact fitsS16_s16 _ | exact hb _

/-- Every register name reads as a representable integer. -/
theorem State.fitsS16_readReg (s : State) (r : Reg) : fitsS16 (s.readReg r) := by
  have h := s.readReg_range r
  cases hw : regWidth r <;> simp only [hw] at h
  · exact ⟨by omega, by omega⟩
  · exact h

theorem storedValue_of_fits {t : Int} (h : fitsS16 t) : storedValue .w16 t = t := s16_u16_of_fits h

@[simp] theorem storedValue_zero (w : Width) : storedValue w 0 = 0 := by cases w <;> rfl

/-- Copying between names of one width copies the value. -/
theorem storedValue_readReg (s : State) {q r : Reg} (h : regWidth q = regWidth r) :
    storedValue (regWidth r) (s.readReg q) = s.readReg q := by
  have hr := s.readReg_range q
  rw [h] at hr
  cases hw : regWidth r <;> simp only [hw] at hr ⊢
  · simp only [storedValue]; omega
  · exact storedValue_of_fits hr

end Sys2Proof.Machine
end

