-- ==== Sys2Proof/Laws/Exec.lean ====
section
/-! SUPPORT. What each shared operation can do, said once, and what any instruction can do: the lemmas later proofs cite
instead of unfolding a meaning. -/

namespace Sys2Proof.Machine

/-! ## Frames of the updates -/

theorem onlyReg_writeReg (s : State) (r : Reg) (v : Int) : OnlyReg r s (s.writeReg r v) :=
  ⟨sameRegsBut_writeReg s r v, ⟨by simp, by simp⟩, by simp, by simp, by simp, by simp, by simp⟩

/-- Writing a register and setting a flag changes only that register's storage and that flag. -/
theorem onlyReg_writeReg_setFlag (s : State) (r : Reg) (v : Int) (f : Flag) :
    OnlyReg r s ((s.writeReg r v).setFlag f) :=
  ⟨fun q h => by rw [State.setFlag_readReg, s.readReg_writeReg_other v h],
    ⟨by simp, by simp⟩, by simp, by simp, by simp, by simp, by simp⟩

theorem sameFlags_writeReg (s : State) (r : Reg) (v : Int) : SameFlags s (s.writeReg r v) :=
  s.writeReg_flags r v

/-- Writing a register sets a flag only if it should not. -/
theorem flagSetIff_writeReg (s : State) (r : Reg) (v : Int) {f : Flag} {p : Prop} (h : ¬ p) :
    FlagSetIff f p s (s.writeReg r v) := by
  refine ⟨by simp [h], fun g _ => by simp, ?_⟩
  simp only [SameReserved, State.writeReg_flags]

theorem flagSetIff_setFlag (s : State) (r : Reg) (v : Int) {f : Flag} {p : Prop} (h : p) :
    FlagSetIff f p s ((s.writeReg r v).setFlag f) := by
  refine ⟨by simp [h], fun g hg => by simp [hg], State.setFlag_reserved _ _ |>.trans (by rw [State.writeReg_flags])⟩

/-- A name holds an integer just written to it, if the integer is representable (R14). -/
theorem holdsResult_writeReg (s : State) (r : Reg) {v : Int} (h : fitsS16 v) : HoldsResult r v (s.writeReg r v) := by
  simp only [HoldsResult, State.readReg_writeReg_same]
  cases regWidth r
  · rfl
  · exact storedValue_of_fits h

/-- Every operand resolves to a representable integer (R16). -/
theorem State.fitsS16_resolve (s : State) (a : Operand) : fitsS16 (s.resolve a) := by
  cases a with
  | constant k => exact fitsS16_s16 k
  | register r => exact s.fitsS16_readReg r

/-! ## The range rule and the shift guard -/

/-- All of `writeRanged` (41_arithmetic.md R90). -/
theorem State.writeRanged_spec (s : State) (r : Reg) (v : Int) :
    (fitsS16 v → HoldsResult r v (s.writeRanged r v)) ∧ (¬ fitsS16 v → (s.writeRanged r v).readReg r = 0) ∧
      FlagSetIff .overflow (¬ fitsS16 v) s (s.writeRanged r v) ∧ OnlyReg r s (s.writeRanged r v) := by
  by_cases h : fitsS16 v
  · simp only [State.writeRanged, if_pos h]
    exact ⟨fun _ => holdsResult_writeReg s r h, fun hn => absurd h hn, flagSetIff_writeReg s r v (fun hn => hn h),
      onlyReg_writeReg s r v⟩
  · simp only [State.writeRanged, if_neg h]
    exact ⟨fun hp => absurd hp h, fun _ => by simp, flagSetIff_setFlag s r 0 h, onlyReg_writeReg_setFlag s r 0 _⟩

/-- All of `writeGuarded` (42_logic_shift.md R104). -/
theorem State.writeGuarded_spec (s : State) (r : Reg) (n : Nat) (v : Word) :
    (15 < n → (s.writeGuarded r n v).readReg r = 0) ∧
      (n ≤ 15 → (s.writeGuarded r n v).readReg r = storedValue (regWidth r) v.toNat) ∧
      FlagSetIff .overflow (15 < n) s (s.writeGuarded r n v) ∧ OnlyReg r s (s.writeGuarded r n v) := by
  by_cases h : 15 < n
  · simp only [State.writeGuarded, if_pos h]
    exact ⟨fun _ => by simp, fun hn => absurd hn (by omega), flagSetIff_setFlag s r 0 h, onlyReg_writeReg_setFlag s r 0 _⟩
  · simp only [State.writeGuarded, if_neg h]
    exact ⟨fun hp => absurd hp h, fun _ => by simp, flagSetIff_writeReg s r _ h, onlyReg_writeReg s r _⟩

/-! ## The end of an Execute -/

@[simp] theorem finish_ok (s t : State) : finish s (.ok t) = .next t := rfl

@[simp] theorem finish_error (s : State) (f : FatalFault) : finish s (.error f) = .next (s.enterHalt (.fatal f)) := rfl

/-- A halted machine is as it was but for the halted state (60_exceptions.md R135). -/
theorem haltedAs_enterHalt (s : State) (h : HaltReason) : HaltedAs h s (s.enterHalt h) :=
  ⟨rfl, rfl, rfl, rfl, rfl, fun q => by simp, rfl, rfl, fun _ => rfl⟩

/-! ## Load -/

theorem State.loadRegReg_ok (s : State) {rs rd : Reg} (h : regWidth rs = regWidth rd) :
    s.loadRegReg rs rd = .ok (s.writeReg rd (s.readReg rs)) := by simp [State.loadRegReg, h]

theorem State.loadRegReg_error (s : State) {rs rd : Reg} (h : regWidth rs ≠ regWidth rd) :
    s.loadRegReg rs rd = .error (.loadWidthMismatch rs rd) := by simp [State.loadRegReg, h]

/-- A constant source is the memory content at that address (40_load.md R80), when in bounds. -/
theorem State.constSource_address (s : State) (k : Word) (w : Width) :
    s.constSource Settings.loadConstSource k w = (s.mem.load k.toNat w).map (loadedValue w) := rfl

theorem State.loadMemReg_w16 (s : State) {k : Word} {rd : Reg} (hw : regWidth rd = .w16) (h : k.toNat + 2 ≤ s.mem.size) :
    s.loadMemReg k rd =
      .ok (s.writeReg rd (s16 (bytesToWord (s.mem.byteAt k.toNat) (s.mem.byteAt (k.toNat + 1))))) := by
  simp [State.loadMemReg, State.constSource_address, hw, Memory.load_w16 h, Except.map, loadedValue, bind, Except.bind]

theorem State.loadMemReg_w8 (s : State) {k : Word} {rd : Reg} (hw : regWidth rd = .w8) (h : k.toNat + 1 ≤ s.mem.size) :
    s.loadMemReg k rd = .ok (s.writeReg rd ((s.mem.byteAt k.toNat).toNat : Int)) := by
  simp [State.loadMemReg, State.constSource_address, hw, Memory.load_w8 h, Except.map, loadedValue, bind, Except.bind]

theorem State.loadMemReg_error (s : State) {k : Word} {rd : Reg}
    (h : ¬ k.toNat + accessBytes (regWidth rd) ≤ s.mem.size) :
    s.loadMemReg k rd = .error (.outOfBounds k.toNat (accessBytes (regWidth rd))) := by
  simp [State.loadMemReg, State.constSource_address, Memory.load_error h, Except.map, bind, Except.bind]

theorem State.loadRegMem_w16 (s : State) {k : Word} {rs : Reg} (hw : regWidth rs = .w16) (h : k.toNat + 2 ≤ s.mem.size) :
    s.loadRegMem rs k = .ok (s.setMem (s.mem.setWord k.toNat (u16 (s.readReg rs)))) := by
  simp [State.loadRegMem, hw, Memory.store_w16 _ h, bind, Except.bind]

theorem State.loadRegMem_w8 (s : State) {k : Word} {rs : Reg} (hw : regWidth rs = .w8) (h : k.toNat + 1 ≤ s.mem.size) :
    s.loadRegMem rs k = .ok (s.setMem (s.mem.setByte k.toNat (u8 (s.readReg rs)))) := by
  simp [State.loadRegMem, hw, Memory.store_w8 _ h, bind, Except.bind]

theorem State.loadRegMem_error (s : State) {k : Word} {rs : Reg}
    (h : ¬ k.toNat + accessBytes (regWidth rs) ≤ s.mem.size) :
    s.loadRegMem rs k = .error (.outOfBounds k.toNat (accessBytes (regWidth rs))) := by
  simp [State.loadRegMem, Memory.store_error _ h, bind, Except.bind]

theorem State.loadMemMem_ok (s : State) {ks kd : Word} (hs : ks.toNat + 2 ≤ s.mem.size) (hd : kd.toNat + 2 ≤ s.mem.size) :
    s.loadMemMem ks kd =
      .ok (s.setMem (s.mem.setWord kd.toNat (bytesToWord (s.mem.byteAt ks.toNat) (s.mem.byteAt (ks.toNat + 1))))) := by
  simp [State.loadMemMem, State.constSource_address, Memory.load_w16 hs, Memory.store_w16 _ hd, Except.map, loadedValue,
    bind, Except.bind]

theorem State.loadMemMem_source (s : State) {ks kd : Word} (hs : ¬ ks.toNat + 2 ≤ s.mem.size) :
    s.loadMemMem ks kd = .error (.outOfBounds ks.toNat 2) := by
  have h := Memory.load_error (m := s.mem) (a := ks.toNat) (w := .w16) hs
  simp [State.loadMemMem, State.constSource_address, h, Except.map, bind, Except.bind, accessBytes]

theorem State.loadMemMem_destination (s : State) {ks kd : Word} (hs : ks.toNat + 2 ≤ s.mem.size)
    (hd : ¬ kd.toNat + 2 ≤ s.mem.size) : s.loadMemMem ks kd = .error (.outOfBounds kd.toNat 2) := by
  have h := fun v => Memory.store_error (m := s.mem) (a := kd.toNat) (w := .w16) v hd
  simp [State.loadMemMem, State.constSource_address, Memory.load_w16 hs, h, Except.map, loadedValue, bind, Except.bind,
    accessBytes]

/-- Everything a Load can do: it writes a register, replaces the memory through one store in bounds, or raises a fatal
fault. -/
theorem State.loadForm_cases (s : State) (a b : Operand) :
    (∃ r v, b = .register r ∧ s.loadForm a b = .ok (s.writeReg r v)) ∨
    (∃ k m', b = .constant k ∧ s.loadForm a b = .ok (s.setMem m') ∧ m'.size = s.mem.size ∧
      (s.mem.wf = true → m'.wf = true)) ∨
    ∃ f, s.loadForm a b = .error f := by
  cases a with
  | register rs =>
    cases b with
    | register rd =>
      by_cases h : regWidth rs = regWidth rd
      · exact .inl ⟨rd, _, rfl, s.loadRegReg_ok h⟩
      · exact .inr (.inr ⟨_, s.loadRegReg_error h⟩)
    | constant k =>
      simp only [State.loadForm, State.loadRegMem]
      rcases Memory.store_cases s.mem k.toNat (regWidth rs) (s.readReg rs) with ⟨_, m', h, h1, h2, _⟩ | ⟨_, h⟩ <;> rw [h]
      · exact .inr (.inl ⟨k, m', rfl, rfl, h1, h2⟩)
      · exact .inr (.inr ⟨_, rfl⟩)
  | constant ks =>
    cases b with
    | register rd =>
      simp only [State.loadForm, State.loadMemReg]
      cases h : s.constSource Settings.loadConstSource ks (regWidth rd) with
      | error f => exact .inr (.inr ⟨f, rfl⟩)
      | ok v => exact .inl ⟨rd, v, rfl, rfl⟩
    | constant kd =>
      simp only [State.loadForm, State.loadMemMem]
      cases h : s.constSource Settings.loadConstSource ks .w16 with
      | error f => exact .inr (.inr ⟨f, rfl⟩)
      | ok v =>
        simp only [bind, Except.bind]
        rcases Memory.store_cases s.mem kd.toNat .w16 v with ⟨_, m', h, h1, h2, _⟩ | ⟨_, h⟩ <;> rw [h]
        · exact .inr (.inl ⟨kd, m', rfl, rfl, h1, h2⟩)
        · exact .inr (.inr ⟨_, rfl⟩)

/-! ## Stack -/

theorem State.pushValue_full (s : State) (v : Int) (h : s.sp - s.sbase = s.ssize) : s.pushValue v = .ok s.stackFault := by
  simp [State.pushValue, State.stackFull, h]

theorem State.pushValue_ok (s : State) (v : Int) (h : s.sp - s.sbase ≠ s.ssize) (hb : s.sp.toNat + 2 ≤ s.mem.size) :
    s.pushValue v = .ok ((s.setMem (s.mem.setWord s.sp.toNat (u16 v))).setSp (s.sp + 2)) := by
  simp [State.pushValue, State.stackFull, h, Memory.store_w16 v hb, bind, Except.bind]

theorem State.pushValue_error (s : State) (v : Int) (h : s.sp - s.sbase ≠ s.ssize) (hb : ¬ s.sp.toNat + 2 ≤ s.mem.size) :
    s.pushValue v = .error (.outOfBounds s.sp.toNat 2) := by
  have he := Memory.store_error (m := s.mem) (a := s.sp.toNat) (w := .w16) v hb
  simp [State.pushValue, State.stackFull, h, he, bind, Except.bind, accessBytes]

theorem State.popInto_empty (s : State) (r : Reg) (h : s.sp = s.sbase) : s.popInto r = .ok s.stackFault := by
  simp [State.popInto, State.stackEmpty, h]

theorem State.popInto_ok (s : State) (r : Reg) (h : s.sp ≠ s.sbase) (hb : (s.sp - 2).toNat + 2 ≤ s.mem.size) :
    s.popInto r = .ok ((s.setSp (s.sp - 2)).writeReg r
      (s16 (bytesToWord (s.mem.byteAt (s.sp - 2).toNat) (s.mem.byteAt ((s.sp - 2).toNat + 1))))) := by
  simp only [State.popInto, State.stackEmpty, h, if_false, Memory.load_w16 hb, bind, Except.bind, loadedValue,
    BitVec.ofNat_toNat, BitVec.setWidth_eq]

theorem State.popInto_error (s : State) (r : Reg) (h : s.sp ≠ s.sbase) (hb : ¬ (s.sp - 2).toNat + 2 ≤ s.mem.size) :
    s.popInto r = .error (.outOfBounds (s.sp - 2).toNat 2) := by
  have he := Memory.load_error (m := s.mem) (a := (s.sp - 2).toNat) (w := .w16) hb
  simp only [State.popInto, State.stackEmpty, h, if_false, he, bind, Except.bind, accessBytes]

@[simp] theorem State.stackFault_sp (s : State) : s.stackFault.sp = 0 := rfl
@[simp] theorem State.stackFault_pc (s : State) : s.stackFault.pc = s.pc := rfl
@[simp] theorem State.stackFault_mem (s : State) : s.stackFault.mem = s.mem := rfl
@[simp] theorem State.stackFault_sbase (s : State) : s.stackFault.sbase = s.sbase := rfl
@[simp] theorem State.stackFault_ssize (s : State) : s.stackFault.ssize = s.ssize := rfl
@[simp] theorem State.stackFault_halt (s : State) : s.stackFault.halt = s.halt := rfl
@[simp] theorem State.stackFault_readReg (s : State) (q : Reg) : s.stackFault.readReg q = s.readReg q := by
  simp [State.stackFault]

/-- A stack fault sets OVERFLOW and no other flag. -/
theorem State.stackFault_flags (s : State) : FlagSetIff .overflow True s s.stackFault := by
  refine ⟨by simp [State.stackFault], fun g hg => by simp [State.stackFault, hg], (s.setSp 0).setFlag_reserved _⟩

/-! ## Load, Push and Pop by the result of their operation -/

theorem exec_load_of_ok {a b : Operand} {s t : State} (h : s.loadForm a b = .ok t) : exec (.load a b) s = .next t := by
  simp only [exec, execLoad, h, finish_ok]

theorem exec_load_of_error {a b : Operand} {s : State} {f : FatalFault} (h : s.loadForm a b = .error f) :
    exec (.load a b) s = .next (s.enterHalt (.fatal f)) := by
  simp only [exec, execLoad, h, finish_error]

theorem exec_push_of_ok {a : Operand} {s t : State} (h : s.pushValue (s.resolve a) = .ok t) :
    exec (.push a) s = .next t := by
  simp only [exec, execPush, h, finish_ok]

theorem exec_push_of_error {a : Operand} {s : State} {f : FatalFault} (h : s.pushValue (s.resolve a) = .error f) :
    exec (.push a) s = .next (s.enterHalt (.fatal f)) := by
  simp only [exec, execPush, h, finish_error]

theorem exec_pop_of_ok {r : Reg} {s t : State} (h : s.popInto r = .ok t) : exec (.pop r) s = .next t := by
  simp only [exec, execPop, h, finish_ok]

theorem exec_pop_of_error {r : Reg} {s : State} {f : FatalFault} (h : s.popInto r = .error f) :
    exec (.pop r) s = .next (s.enterHalt (.fatal f)) := by
  simp only [exec, execPop, h, finish_error]

/-! ## The memory after a store, as stored bytes over the old memory -/

@[simp] theorem wordBytes_length (v : Int) : (wordBytes v).length = 2 := rfl

/-- A word stored is its two bytes over the old memory. -/
theorem Memory.byteAt_setWord {m : Memory} (hw : m.wf = true) {a : Nat} (ha : a < m.size) (p : Word) (x : Nat) :
    (m.setWord a p).byteAt x = byteOver m a [hiByte p, loByte p] x := by
  simp only [byteOver, List.length_cons, List.length_nil]
  split
  · obtain rfl | rfl : x = a ∨ x = a + 1 := by omega
    · rw [Memory.byteAt_setWord_first hw]
      simp
    · rw [Memory.byteAt_setWord_second hw _ ha]
      simp
  · exact Memory.byteAt_setWord_other _ _ (by omega)

/-- A byte stored is that byte over the old memory. -/
theorem Memory.byteAt_setByte {m : Memory} (hw : m.wf = true) (a : Nat) (b : Byte) (x : Nat) :
    (m.setByte a b).byteAt x = byteOver m a [b] x := by
  simp only [byteOver, List.length_cons, List.length_nil]
  split
  · obtain rfl : x = a := by omega
    rw [Memory.byteAt_setByte_same hw]
    simp
  · exact Memory.byteAt_setByte_other _ _ (by omega)

/-! ## Any instruction -/

/-- Everything an instruction can do to the state: each outcome is a next state of one of these forms. -/
inductive Effect (s : State) : Instr → State → Prop where
  | write (i : Instr) (r : Reg) (v : Int) : Effect s i (s.writeReg r v)
  | writeFlag (i : Instr) (r : Reg) (v : Int) (f : Flag) : Effect s i ((s.writeReg r v).setFlag f)
  | flag (i : Instr) (f : Flag) : Effect s i (s.setFlag f)
  | jump (i : Instr) (v : Word) (h : ∃ a, i = .jmp a ∨ i = .jeq a ∨ i = .jne a ∨ i = .jgt a ∨ i = .jlt a) :
      Effect s i (s.setPc v)
  | none (i : Instr) : Effect s i s
  | store (a : Operand) (k : Word) (m : Memory) (hs : m.size = s.mem.size) (hw : s.mem.wf = true → m.wf = true) :
      Effect s (.load a (.constant k)) (s.setMem m)
  | push (a : Operand) (m : Memory) (hf : s.sp - s.sbase ≠ s.ssize) (hb : s.sp.toNat + 2 ≤ s.mem.size)
      (hs : m.size = s.mem.size) (hw : s.mem.wf = true → m.wf = true) :
      Effect s (.push a) ((s.setMem m).setSp (s.sp + 2))
  | pop (r : Reg) (v : Int) (he : s.sp ≠ s.sbase) (hb : (s.sp - 2).toNat + 2 ≤ s.mem.size) :
      Effect s (.pop r) ((s.setSp (s.sp - 2)).writeReg r v)
  | full (a : Operand) (h : s.sp - s.sbase = s.ssize) : Effect s (.push a) s.stackFault
  | empty (r : Reg) (h : s.sp = s.sbase) : Effect s (.pop r) s.stackFault
  | halt (i : Instr) (f : FatalFault) (h : (∃ a b, i = .load a b) ∨ (∃ a, i = .push a) ∨ ∃ r, i = .pop r) :
      Effect s i (s.enterHalt (.fatal f))

theorem effect_writeRanged (s : State) (i : Instr) (r : Reg) (v : Int) : Effect s i (s.writeRanged r v) := by
  simp only [State.writeRanged]
  split
  · exact .write i r v
  · exact .writeFlag i r 0 _

theorem effect_writeGuarded (s : State) (i : Instr) (r : Reg) (n : Nat) (v : Word) :
    Effect s i (s.writeGuarded r n v) := by
  simp only [State.writeGuarded]
  split
  · exact .writeFlag i r 0 _
  · exact .write i r _

theorem effect_jumpIf (s : State) (i : Instr) (taken : Bool) (a : Operand)
    (h : ∃ a, i = .jmp a ∨ i = .jeq a ∨ i = .jne a ∨ i = .jgt a ∨ i = .jlt a) : Effect s i (s.jumpIf taken a) := by
  simp only [State.jumpIf]
  split
  · exact .jump i _ h
  · exact .none i

/-- Every instruction answers a next state, of one of the forms of `Effect`. -/
theorem exec_effect (i : Instr) (s : State) : ∃ t, exec i s = .next t ∧ Effect s i t := by
  cases i with
  | load a b =>
    rcases s.loadForm_cases a b with ⟨r, v, rfl, h⟩ | ⟨k, m, rfl, h, h1, h2⟩ | ⟨f, h⟩
    · exact ⟨_, exec_load_of_ok h, .write _ r v⟩
    · exact ⟨_, exec_load_of_ok h, .store a k m h1 h2⟩
    · exact ⟨_, exec_load_of_error h, .halt _ f (.inl ⟨a, b, rfl⟩)⟩
  | sum a r => exact ⟨_, rfl, effect_writeRanged s _ r _⟩
  | sub a r => exact ⟨_, rfl, effect_writeRanged s _ r _⟩
  | mul a r => exact ⟨_, rfl, effect_writeRanged s _ r _⟩
  | div a r =>
    refine ⟨_, rfl, ?_⟩
    split
    · exact .writeFlag _ r 0 _
    · split
      · exact .writeFlag _ r 0 _
      · exact .write _ r _
  | and a r => exact ⟨_, rfl, .write _ r _⟩
  | or a r => exact ⟨_, rfl, .write _ r _⟩
  | xor a r => exact ⟨_, rfl, .write _ r _⟩
  | shr a r => exact ⟨_, rfl, effect_writeGuarded s _ r _ _⟩
  | shl a r => exact ⟨_, rfl, effect_writeGuarded s _ r _ _⟩
  | cmp a r => exact ⟨_, rfl, .flag _ _⟩
  | not r => exact ⟨_, rfl, .write _ r _⟩
  | jmp a => exact ⟨_, rfl, effect_jumpIf s _ _ a ⟨a, .inl rfl⟩⟩
  | jeq a => exact ⟨_, rfl, effect_jumpIf s _ _ a ⟨a, .inr (.inl rfl)⟩⟩
  | jne a => exact ⟨_, rfl, effect_jumpIf s _ _ a ⟨a, .inr (.inr (.inl rfl))⟩⟩
  | jgt a => exact ⟨_, rfl, effect_jumpIf s _ _ a ⟨a, .inr (.inr (.inr (.inl rfl)))⟩⟩
  | jlt a => exact ⟨_, rfl, effect_jumpIf s _ _ a ⟨a, .inr (.inr (.inr (.inr rfl)))⟩⟩
  | push a =>
    by_cases h : s.sp - s.sbase = s.ssize
    · exact ⟨_, exec_push_of_ok (s.pushValue_full _ h), .full a h⟩
    · by_cases hb : s.sp.toNat + 2 ≤ s.mem.size
      · exact ⟨_, exec_push_of_ok (s.pushValue_ok _ h hb),
          .push a _ h hb rfl (fun hw => Memory.wf_setWord hw _ hb)⟩
      · exact ⟨_, exec_push_of_error (s.pushValue_error _ h hb), .halt _ _ (.inr (.inl ⟨a, rfl⟩))⟩
  | pop r =>
    by_cases h : s.sp = s.sbase
    · exact ⟨_, exec_pop_of_ok (s.popInto_empty r h), .empty r h⟩
    · by_cases hb : (s.sp - 2).toNat + 2 ≤ s.mem.size
      · exact ⟨_, exec_pop_of_ok (s.popInto_ok r h hb), .pop r _ h hb⟩
      · exact ⟨_, exec_pop_of_error (s.popInto_error r h hb), .halt _ _ (.inr (.inr ⟨r, rfl⟩))⟩

/-- The inversion lemma of `exec`. -/
theorem effect_of_exec {i : Instr} {s t : State} (h : exec i s = .next t) : Effect s i t := by
  obtain ⟨t', ht, he⟩ := exec_effect i s
  rw [ht] at h
  cases h
  exact he

end Sys2Proof.Machine
end

