-- ==== Sys2Proof/Laws/Host.lean ====
section
/-! SUPPORT. What the host's moves can do (10_state.md R28). -/

namespace Sys2Proof.Machine

/-- Everything a host move can do: write a register; replace the memory through one store in bounds; push or pop on its
normal path; or take the stack fault, exactly where the stack is full or empty. -/
theorem hostApply_cases {h : HostMove} {s t : State} (ht : hostApply h s = .ok t) :
    (¬ hostStackFaults h s ∧
      ((∃ r v, t = s.writeReg r v) ∨
        (∃ m, t = s.setMem m ∧ m.size = s.mem.size ∧ (s.mem.wf = true → m.wf = true)) ∨
        (∃ m, t = (s.setMem m).setSp (s.sp + 2) ∧ m.size = s.mem.size ∧ (s.mem.wf = true → m.wf = true)) ∨
        ∃ r v, t = (s.setSp (s.sp - 2)).writeReg r v)) ∨
    (hostStackFaults h s ∧ t = s.stackFault) := by
  have byStore : ∀ (a : Nat) (w : Width) (v : Int), (s.mem.store a w v).map s.setMem = .ok t →
      ∃ m, t = s.setMem m ∧ m.size = s.mem.size ∧ (s.mem.wf = true → m.wf = true) := by
    intro a w v hs
    rcases Memory.store_cases s.mem a w v with ⟨_, m, hm, h1, h2, _⟩ | ⟨_, hm⟩ <;> rw [hm] at hs <;> cases hs
    exact ⟨m, rfl, h1, h2⟩
  cases h with
  | writeReg r v => cases ht; exact .inl ⟨id, .inl ⟨r, v, rfl⟩⟩
  | writeByte a b =>
    refine .inl ⟨id, .inr (.inl (byStore a .w8 b.toNat ?_))⟩
    simp only [Memory.store, u8_toNat]
    exact ht
  | writeWord a v => exact .inl ⟨id, .inr (.inl (byStore a .w16 v ht))⟩
  | push v =>
    simp only [hostApply] at ht
    by_cases hf : s.sp - s.sbase = s.ssize
    · rw [s.pushValue_full v hf] at ht
      cases ht
      exact .inr ⟨hf, rfl⟩
    · by_cases hb : s.sp.toNat + 2 ≤ s.mem.size
      · rw [s.pushValue_ok v hf hb] at ht
        cases ht
        exact .inl ⟨hf, .inr (.inr (.inl ⟨_, rfl, rfl, fun hw => Memory.wf_setWord hw _ hb⟩))⟩
      · rw [s.pushValue_error v hf hb] at ht
        cases ht
  | pop r =>
    simp only [hostApply] at ht
    by_cases he : s.sp = s.sbase
    · rw [s.popInto_empty r he] at ht
      cases ht
      exact .inr ⟨he, rfl⟩
    · by_cases hb : (s.sp - 2).toNat + 2 ≤ s.mem.size
      · rw [s.popInto_ok r he hb] at ht
        cases ht
        exact .inl ⟨he, .inr (.inr (.inr ⟨r, _, rfl⟩))⟩
      · rw [s.popInto_error r he hb] at ht
        cases ht

end Sys2Proof.Machine
end

