-- ==== Sys2Proof/Laws/PerInstr.lean ====
section
/-! SUPPORT. Statements made per instruction, one lemma a constructor. -/

namespace Sys2Proof.Laws.StreamLength

/-- The stream form of an instruction, where it has one, is its opcode byte and its payload, 2 to 5 bytes, of the length
R70 gives for its opcode byte (30_encoding.md R50, R70). -/
def Statement (i : Instr) : Prop :=
  ∀ bytes : List Byte, encodeStream i = .ok bytes →
    bytes = opcodeByte i.op i.fa i.fb :: i.payload ∧ 2 ≤ bytes.length ∧ bytes.length ≤ maxStreamBytes ∧
      bytes.length = lengthOfOpcodeByte (opcodeByte i.op i.fa i.fb)

/-- The form of the stream, for an instruction of any constructor. -/
theorem stream_eq {i : Instr} {bytes : List Byte} (h : encodeStream i = .ok bytes) :
    bytes = opcodeByte i.op i.fa i.fb :: i.payload ∧ i.op.format.kinds.contains (i.fa, i.fb) = true := by
  unfold encodeStream at h
  split at h
  · rename_i hk
    cases h
    exact ⟨rfl, hk⟩
  · cases h

/-- The statement from a bound on the payload and R70's formula, which each constructor supplies. -/
theorem of_payload {i : Instr}
    (h : i.op.format.kinds.contains (i.fa, i.fb) = true →
      1 ≤ i.payload.length ∧ i.payload.length ≤ 4 ∧
        i.payload.length + 1 = i.op.format.bytes i.fa i.fb) : Statement i := by
  intro bytes hb
  obtain ⟨rfl, hk⟩ := stream_eq hb
  obtain ⟨h1, h2, h3⟩ := h hk
  refine ⟨rfl, ?_, ?_, ?_⟩
  · simp only [List.length_cons]; omega
  · simp only [List.length_cons, maxStreamBytes]; omega
  · rw [lengthOfOpcodeByte_opcodeByte _ hk, ← h3, List.length_cons]

theorem load (a b : Operand) : Statement (.load a b) := by
  apply of_payload
  intro _
  cases a <;> cases b <;> exact ⟨Nat.le_of_ble_eq_true rfl, Nat.le_of_ble_eq_true rfl, rfl⟩

theorem sum (a : Operand) (r : Reg) : Statement (.sum a r) := by
  apply of_payload
  intro _
  cases a <;> exact ⟨Nat.le_of_ble_eq_true rfl, Nat.le_of_ble_eq_true rfl, rfl⟩

theorem sub (a : Operand) (r : Reg) : Statement (.sub a r) := by
  apply of_payload
  intro _
  cases a <;> exact ⟨Nat.le_of_ble_eq_true rfl, Nat.le_of_ble_eq_true rfl, rfl⟩

theorem mul (a : Operand) (r : Reg) : Statement (.mul a r) := by
  apply of_payload
  intro _
  cases a <;> exact ⟨Nat.le_of_ble_eq_true rfl, Nat.le_of_ble_eq_true rfl, rfl⟩

theorem div (a : Operand) (r : Reg) : Statement (.div a r) := by
  apply of_payload
  intro _
  cases a <;> exact ⟨Nat.le_of_ble_eq_true rfl, Nat.le_of_ble_eq_true rfl, rfl⟩

theorem and (a : Operand) (r : Reg) : Statement (.and a r) := by
  apply of_payload
  intro _
  cases a <;> exact ⟨Nat.le_of_ble_eq_true rfl, Nat.le_of_ble_eq_true rfl, rfl⟩

theorem or (a : Operand) (r : Reg) : Statement (.or a r) := by
  apply of_payload
  intro _
  cases a <;> exact ⟨Nat.le_of_ble_eq_true rfl, Nat.le_of_ble_eq_true rfl, rfl⟩

theorem xor (a : Operand) (r : Reg) : Statement (.xor a r) := by
  apply of_payload
  intro _
  cases a <;> exact ⟨Nat.le_of_ble_eq_true rfl, Nat.le_of_ble_eq_true rfl, rfl⟩

theorem shr (a : Operand) (r : Reg) : Statement (.shr a r) := by
  apply of_payload
  intro hk
  cases a with
  | constant k => cases hk
  | register q => exact ⟨Nat.le_of_ble_eq_true rfl, Nat.le_of_ble_eq_true rfl, rfl⟩

theorem shl (a : Operand) (r : Reg) : Statement (.shl a r) := by
  apply of_payload
  intro hk
  cases a with
  | constant k => cases hk
  | register q => exact ⟨Nat.le_of_ble_eq_true rfl, Nat.le_of_ble_eq_true rfl, rfl⟩

theorem cmp (a : Operand) (r : Reg) : Statement (.cmp a r) := by
  apply of_payload
  intro hk
  cases a with
  | constant k => cases hk
  | register q => exact ⟨Nat.le_of_ble_eq_true rfl, Nat.le_of_ble_eq_true rfl, rfl⟩

theorem not (r : Reg) : Statement (.not r) := by
  apply of_payload
  intro _
  exact ⟨Nat.le_of_ble_eq_true rfl, Nat.le_of_ble_eq_true rfl, rfl⟩

theorem jmp (a : Operand) : Statement (.jmp a) := by
  apply of_payload
  intro hk
  cases a with
  | constant k => cases hk
  | register q => exact ⟨Nat.le_of_ble_eq_true rfl, Nat.le_of_ble_eq_true rfl, rfl⟩

theorem jeq (a : Operand) : Statement (.jeq a) := by
  apply of_payload
  intro hk
  cases a with
  | constant k => cases hk
  | register q => exact ⟨Nat.le_of_ble_eq_true rfl, Nat.le_of_ble_eq_true rfl, rfl⟩

theorem jne (a : Operand) : Statement (.jne a) := by
  apply of_payload
  intro hk
  cases a with
  | constant k => cases hk
  | register q => exact ⟨Nat.le_of_ble_eq_true rfl, Nat.le_of_ble_eq_true rfl, rfl⟩

theorem jgt (a : Operand) : Statement (.jgt a) := by
  apply of_payload
  intro hk
  cases a with
  | constant k => cases hk
  | register q => exact ⟨Nat.le_of_ble_eq_true rfl, Nat.le_of_ble_eq_true rfl, rfl⟩

theorem jlt (a : Operand) : Statement (.jlt a) := by
  apply of_payload
  intro hk
  cases a with
  | constant k => cases hk
  | register q => exact ⟨Nat.le_of_ble_eq_true rfl, Nat.le_of_ble_eq_true rfl, rfl⟩

theorem push (a : Operand) : Statement (.push a) := by
  apply of_payload
  intro hk
  cases a with
  | constant k => cases hk
  | register q => exact ⟨Nat.le_of_ble_eq_true rfl, Nat.le_of_ble_eq_true rfl, rfl⟩

theorem pop (r : Reg) : Statement (.pop r) := by
  apply of_payload
  intro _
  exact ⟨Nat.le_of_ble_eq_true rfl, Nat.le_of_ble_eq_true rfl, rfl⟩

end Sys2Proof.Laws.StreamLength
end

