-- ==== Sys2Proof/Laws/Step.lean ====
section
/-! SUPPORT. Everything a step can do, said once (10_state.md R21, 60_exceptions.md R133, R140). -/

namespace Sys2Proof.Machine

theorem step_of_halted {s : State} {r : HaltReason} (h : s.halt = some r) : step s = .fault (.halted r) := by
  simp [step, h]

theorem step_of_error {s : State} {e : DecodeError} (h : s.halt = none) (hd : decodeAt s.mem s.pc.toNat = .error e) :
    step s = .next (s.enterHalt (.decode e)) := by
  simp [step, h, hd]

theorem step_of_ok {s : State} {i : Instr} {n : Nat} (h : s.halt = none)
    (hd : decodeAt s.mem s.pc.toNat = .ok (i, n)) : step s = exec i (s.advance n) := by
  simp [step, h, hd]

/-- A step that answers a next state ran a decoded instruction, or met a decode error and halted. -/
theorem step_cases {s t : State} (h : step s = .next t) :
    s.halt = none ∧
      ((∃ i n, decodeAt s.mem s.pc.toNat = .ok (i, n) ∧ exec i (s.advance n) = .next t ∧ Effect (s.advance n) i t) ∨
        ∃ e, decodeAt s.mem s.pc.toNat = .error e ∧ t = s.enterHalt (.decode e)) := by
  cases hh : s.halt with
  | some r => rw [step_of_halted hh] at h; cases h
  | none =>
    refine ⟨rfl, ?_⟩
    cases hd : decodeAt s.mem s.pc.toNat with
    | error e =>
      rw [step_of_error hh hd] at h
      cases h
      exact .inr ⟨e, rfl, rfl⟩
    | ok p =>
      obtain ⟨i, n⟩ := p
      rw [step_of_ok hh hd] at h
      exact .inl ⟨i, n, rfl, h, effect_of_exec h⟩

/-- What every step keeps holds along every run: the induction over runs, said once. -/
theorem run_keeps {P : State → Prop} (h : ∀ s t, P s → step s = .next t → P t) :
    ∀ (k : Nat) (s t : State), P s → Host.Core.run Sys2Proof.core k s = .next t → P t := by
  intro k
  induction k with
  | zero => intro s t hs ht; cases ht; exact hs
  | succ k ih =>
    intro s t hs ht
    have hr := (Host.Core.run.eq_2 Sys2Proof.core s k).symm.trans ht
    cases hu : step s with
    | next u =>
      rw [show Sys2Proof.core.step s = .next u from hu] at hr
      exact ih u t (h s u hs hu) hr
    | fault r => rw [show Sys2Proof.core.step s = .fault r from hu] at hr; cases hr
    | refused r => rw [show Sys2Proof.core.step s = .refused r from hu] at hr; cases hr

end Sys2Proof.Machine
end

