-- ==== Sys2Proof/Tests/Slice0.lean ====
section
/-! SUPPORT. Tests: expected results are the hand-computed vectors of spec/95_test_vectors.md (their ids are in the
docstrings), and, for every statement with hypotheses, a state and operands that meet them. -/

namespace Sys2Proof.Tests

open Sys2Proof.Machine

/-- The next state, if there is one. -/
def after (o : Host.Outcome State Fault Refusal) : Option State :=
  match o with
  | .next t => some t
  | .fault _ => none
  | .refused _ => none

/-- MEM_SIZE = 64, STACK_BASE = 16, STACK_SIZE = 4, nothing loaded. -/
def small : State := State.resetWith ⟨64, 16, 4, []⟩

/-- A machine with 64 bytes of memory and an image. -/
def loaded (image : List (Nat × Byte)) : State := State.resetWith ⟨64, 16, 4, image⟩

/-- A memory of exactly the given bytes. -/
def bytesMem (bytes : List Byte) : Memory := (Memory.blank bytes.length).placeBytes 0 bytes

/-- What a register reads as after an instruction. -/
def readAfter (i : Instr) (s : State) (r : Reg) : Option Int := (after (exec i s)).map (fun t => t.readReg r)

/-- The accumulator B after an instruction, and the flags. -/
def wordFlags (i : Instr) (s : State) (g : Acc) : Option (Word × Byte) :=
  (after (exec i s)).map (fun t => (t.acc g, t.flags))

/-- The halt reason after an instruction. -/
def haltAfter (i : Instr) (s : State) : Option (Option HaltReason) := (after (exec i s)).map State.halt

/-! ## Well-formed instructions -/

/-- The nine refused forms, one ill-formed term each (R61; part 3). -/
theorem test_illFormed_refused :
    ([.shr (.constant 17) .B, .shl (.constant 1) .A, .cmp (.constant 5) .A, .jmp (.constant 8), .jeq (.constant 8),
      .jne (.constant 8), .jgt (.constant 8), .jlt (.constant 8), .push (.constant 45)] : List Instr).map
        Instr.wellFormed = [false, false, false, false, false, false, false, false, false] := by decide

theorem test_illFormed_not_encoded :
    encode (.shr (.constant 17) .B) = .error ⟨.shr (.constant 17) .B⟩ ∧
      encode (.push (.constant 45)) = .error ⟨.push (.constant 45)⟩ := ⟨rfl, rfl⟩

theorem test_wellFormed :
    Instr.wellFormed (.load (.constant 1) (.constant 2)) = true ∧ Instr.wellFormed (.shr (.register .A) .B) = true ∧
      Instr.wellFormed (.sum (.constant 1) .A) = true ∧ Instr.wellFormed (.not .DL) = true := by decide

/-! ## Decoding words written out from the encodings (table E) -/

theorem test_decode_load :
    decodeStream 0 [0x0B, 0x01, 0x04] = .ok (.load (.register .A) (.register .B), 3) ∧
      decodeStream 0 [0x09, 0x00, 0x11, 0x04] = .ok (.load (.constant 0x0011) (.register .B), 4) ∧
      decodeStream 0 [0x0A, 0x09, 0x12, 0x34] = .ok (.load (.register .CL) (.constant 0x1234), 4) ∧
      decodeStream 0 [0x08, 0xAB, 0xCD, 0x01, 0x02] = .ok (.load (.constant 0xABCD) (.constant 0x0102), 5) :=
  ⟨rfl, rfl, rfl, rfl⟩

theorem test_decode_arithmetic :
    decodeStream 0 [0x13, 0x04, 0x01] = .ok (.sum (.register .B) .A, 3) ∧
      decodeStream 0 [0x11, 0x7F, 0xFF, 0x0C] = .ok (.sum (.constant 0x7FFF) .DL, 4) ∧
      decodeStream 0 [0x1B, 0x02, 0x05] = .ok (.sub (.register .AH) .BH, 3) ∧
      decodeStream 0 [0x19, 0x00, 0x01, 0x07] = .ok (.sub (.constant 1) .C, 4) ∧
      decodeStream 0 [0x23, 0x0A, 0x0A] = .ok (.mul (.register .D) .D, 3) ∧
      decodeStream 0 [0x21, 0xFF, 0xFE, 0x01] = .ok (.mul (.constant 0xFFFE) .A, 4) ∧
      decodeStream 0 [0x2B, 0x07, 0x04] = .ok (.div (.register .C) .B, 3) ∧
      decodeStream 0 [0x29, 0x00, 0x0A, 0x03] = .ok (.div (.constant 10) .AL, 4) :=
  ⟨rfl, rfl, rfl, rfl, rfl, rfl, rfl, rfl⟩

theorem test_decode_logic :
    decodeStream 0 [0x33, 0x01, 0x04] = .ok (.and (.register .A) .B, 3) ∧
      decodeStream 0 [0x31, 0x00, 0xFF, 0x07] = .ok (.and (.constant 0x00FF) .C, 4) ∧
      decodeStream 0 [0x3B, 0x0C, 0x0B] = .ok (.or (.register .DL) .DH, 3) ∧
      decodeStream 0 [0x39, 0x80, 0x00, 0x01] = .ok (.or (.constant 0x8000) .A, 4) ∧
      decodeStream 0 [0x43, 0x01, 0x01] = .ok (.xor (.register .A) .A, 3) ∧
      decodeStream 0 [0x41, 0xFF, 0xFF, 0x04] = .ok (.xor (.constant 0xFFFF) .B, 4) ∧
      decodeStream 0 [0x61, 0x01] = .ok (.not .A, 2) ∧ decodeStream 0 [0x61, 0x0C] = .ok (.not .DL, 2) :=
  ⟨rfl, rfl, rfl, rfl, rfl, rfl, rfl, rfl⟩

theorem test_decode_shift_compare :
    decodeStream 0 [0x4B, 0x01, 0x04] = .ok (.shr (.register .A) .B, 3) ∧
      decodeStream 0 [0x53, 0x09, 0x0A] = .ok (.shl (.register .CL) .D, 3) ∧
      decodeStream 0 [0x5B, 0x01, 0x07] = .ok (.cmp (.register .A) .C, 3) := ⟨rfl, rfl, rfl⟩

theorem test_decode_jump :
    decodeStream 0 [0x6A, 0x0A] = .ok (.jmp (.register .D), 2) ∧
      decodeStream 0 [0x72, 0x01] = .ok (.jeq (.register .A), 2) ∧
      decodeStream 0 [0x7A, 0x0A] = .ok (.jne (.register .D), 2) ∧
      decodeStream 0 [0x82, 0x04] = .ok (.jgt (.register .B), 2) ∧
      decodeStream 0 [0x8A, 0x09] = .ok (.jlt (.register .CL), 2) := ⟨rfl, rfl, rfl, rfl, rfl⟩

theorem test_decode_stack :
    decodeStream 0 [0x92, 0x01] = .ok (.push (.register .A), 2) ∧ decodeStream 0 [0x99, 0x04] = .ok (.pop .B, 2) ∧
      decodeStream 0 [0x99, 0x0B] = .ok (.pop .DH, 2) := ⟨rfl, rfl, rfl⟩

/-- S1, S2 and three more slots of table E, one of each length. -/
theorem test_encode_slots :
    encode (.load (.register .A) (.register .B)) = .ok [24, 0x0B, 0x01, 0x04, 0, 0] ∧
      encode (.load (.constant 0x11) (.register .B)) = .ok [32, 0x09, 0x00, 0x11, 0x04, 0] ∧
      encode (.load (.constant 0xABCD) (.constant 0x0102)) = .ok [0x28, 0x08, 0xAB, 0xCD, 0x01, 0x02] ∧
      encode (.cmp (.register .A) .C) = .ok [0x18, 0x5B, 0x01, 0x07, 0, 0] ∧
      encode (.pop .DH) = .ok [0x10, 0x99, 0x0B, 0, 0, 0] := ⟨rfl, rfl, rfl, rfl, rfl⟩

/-! ## Decode errors (table X) -/

/-- X1, X2, X3, X4. -/
theorem test_unknownOpcode :
    decodeStream 0 [0x00] = .error (.unknownOpcode 0x00 0) ∧ decodeStream 0 [0x07, 1, 1] = .error (.unknownOpcode 0x07 0) ∧
      decodeStream 0 [0xA0, 1, 1] = .error (.unknownOpcode 0xA0 0) ∧ decodeStream 0 [0xFF] = .error (.unknownOpcode 0xFF 0) :=
  ⟨rfl, rfl, rfl, rfl⟩

/-- X5, X6, X8, X9, X12, X13, X29. -/
theorem test_reservedForm :
    decodeStream 0 [0x18, 0x0B, 0x01, 0x04] = .error (.reservedForm 0x18 0) ∧
      decodeStream 0 [0x0F, 1, 4] = .error (.reservedForm 0x0F 0) ∧ decodeStream 0 [0x12, 1, 1] = .error (.reservedForm 0x12 0) ∧
      decodeStream 0 [0x49, 0, 1, 4] = .error (.reservedForm 0x49 0) ∧
      decodeStream 0 [0x68, 0, 8] = .error (.reservedForm 0x68 0) ∧
      decodeStream 0 [0x90, 0, 0x2D] = .error (.reservedForm 0x90 0) ∧ decodeStream 0 [0x17, 1] = .error (.reservedForm 0x17 0) :=
  ⟨rfl, rfl, rfl, rfl, rfl, rfl, rfl⟩

/-- X15, X16, X17, X18, X19, X20, X25. -/
theorem test_invalidRegisterCode :
    decodeStream 0 [0x0B, 0x00, 0x04] = .error (.invalidRegisterCode 0x00 1) ∧
      decodeStream 0 [0x0B, 0x01, 0x0D] = .error (.invalidRegisterCode 0x0D 2) ∧
      decodeStream 0 [0x0B, 0x00, 0x0D] = .error (.invalidRegisterCode 0x00 1) ∧
      decodeStream 0 [0x61, 0xFF] = .error (.invalidRegisterCode 0xFF 1) ∧
      decodeStream 0 [0x11, 0x00, 0x01, 0x00] = .error (.invalidRegisterCode 0x00 3) ∧
      decodeStream 0 [0x13, 0x0C, 0x0C] = .ok (.sum (.register .DL) .DL, 3) ∧
      decodeStream 0 [0x0B, 0x0D] = .error (.invalidRegisterCode 0x0D 1) := ⟨rfl, rfl, rfl, rfl, rfl, rfl, rfl⟩

/-- X21, X22, X23, X24, X26, X27, X28. -/
theorem test_truncatedStream :
    decodeAt (bytesMem [0x0B, 0x01]) 0 = .error (.truncatedStream 2) ∧
      decodeAt (bytesMem [0x0B]) 0 = .error (.truncatedStream 1) ∧
      decodeAt (bytesMem [0x08, 0, 1, 0]) 0 = .error (.truncatedStream 4) ∧
      decodeAt (bytesMem [0x09, 0, 1]) 0 = .error (.truncatedStream 3) ∧
      decodeAt (bytesMem [0x0B, 0x01, 0x04, 0, 0, 0, 0, 0]) 8 = .error (.truncatedStream 8) ∧
      decodeAt (bytesMem [0, 0, 0, 0, 0, 0x99, 0x0C]) 5 = .ok (.pop .DL, 2) ∧
      decodeAt (bytesMem [0, 0, 0, 0, 0, 0x99]) 5 = .error (.truncatedStream 6) := ⟨rfl, rfl, rfl, rfl, rfl, rfl, rfl⟩

/-- R69's count of the opcode bytes that are forms. -/
theorem test_opcodeBytes_count :
    ((List.range 256).filter (fun n => lengthOfOpcodeByte (BitVec.ofNat 8 n) != 0)).length = 29 := by decide

/-- The table's numbering of bits: the first byte is the lowest. -/
theorem test_decodeTableWord :
    decodeTableWord 24 0x04010B = some (.load (.register .A) (.register .B)) ∧
      decodeTableWord 8 0x08 = some (.load (.constant 0) (.constant 0)) ∧ decodeTableWord 8 0x0B = none ∧
      decodeTableWord 40 0x0C0CFF7F11 = some (.sum (.constant 0x7FFF) .DL) := by decide

/-- S1 in its written form (R74). -/
theorem test_written :
    parseInstr [.op .load, .leftParen, .registerWord, .leftParen, .reg .A, .rightParen, .comma, .registerWord,
      .leftParen, .reg .B, .rightParen, .rightParen] = some (.load (.register .A) (.register .B)) ∧
      parseInstr [.op .sum, .leftParen, .constantWord, .leftParen, .number (-1), .rightParen, .comma, .reg .A,
        .rightParen] = some (.sum (.constant 0xFFFF) .A) := by decide

/-! ## Instructions (part 1 and part 2) -/

/-- LD2. -/
theorem test_load_alias :
    wordFlags (.load (.register .AL) (.register .BH)) { small with wA := 0x12FE, wB := 0x3456 } .B =
      some (0xFE56, 0) := by decide

/-- LD6, LD7, LD9, LD12: an address, not a number; one byte for an alias; an overlapping copy. -/
theorem test_load_memory :
    wordFlags (.load (.constant 0x10) (.register .C)) (loaded [(16, 0x80), (17, 0x01)]) .C = some (0x8001, 0) ∧
      wordFlags (.load (.constant 0x10) (.register .CL)) { loaded [(16, 0x80), (17, 0x01)] with wC := 0x7777 } .C =
        some (0x7780, 0) ∧
      (after (exec (.load (.register .D) (.constant 0x20)) { small with wD := 0xFFFE })).map (fun t => t.mem.cells) =
        some [(32, 0xFF), (33, 0xFE)] ∧
      (after (exec (.load (.constant 0x10) (.constant 0x11)) (loaded [(16, 0xAB), (17, 0xCD)]))).map
        (fun t => t.mem.cells) = some [(16, 0xAB), (17, 0xAB), (18, 0xCD)] := by decide

/-- LD4, LD13, LD15, LD17. -/
theorem test_load_faults :
    haltAfter (.load (.register .A) (.register .BL)) small = some (some (.fatal (.loadWidthMismatch .A .BL))) ∧
      haltAfter (.load (.constant 63) (.register .A)) small = some (some (.fatal (.outOfBounds 63 2))) ∧
      haltAfter (.load (.register .A) (.constant 63)) small = some (some (.fatal (.outOfBounds 63 2))) ∧
      haltAfter (.load (.constant 62) (.constant 63)) small = some (some (.fatal (.outOfBounds 63 2))) := by decide

/-- S3 and A2. -/
theorem test_sum :
    wordFlags (.sum (.register .B) .A) { small with wA := 32767, wB := 4 } .A = some (0, 0x01) ∧
      wordFlags (.sum (.constant 0xFFFF) .A) { small with wA := 10 } .A = some (9, 0) := by decide

/-- A7 and A9: an alias destination keeps its sibling, an alias source is 0..255. -/
theorem test_sum_alias :
    wordFlags (.sum (.constant 200) .AL) { small with wA := 0x1164 } .A = some (0x112C, 0) ∧
      wordFlags (.sum (.register .BL) .A) { small with wA := 1, wB := 0x00FF } .A = some (256, 0) := by decide

/-- A11, A17 and A14: operand A minus operand B. -/
theorem test_sub :
    readAfter (.sub (.constant 10) .B) { small with wB := 3 } .B = some 7 ∧
      wordFlags (.sub (.constant 5) .BL) { small with wB := 0x2207 } .B = some (0x22FE, 0) ∧
      wordFlags (.sub (.register .A) .B) { small with wA := 0x8000, wB := 1 } .B = some (0, 0x01) := by decide

/-- A18, A24, A25. -/
theorem test_mul :
    readAfter (.mul (.constant 3) .C) { small with wC := 0xFFF9 } .C = some (-21) ∧
      readAfter (.mul (.register .C) .C) { small with wC := 181 } .C = some 32761 ∧
      wordFlags (.mul (.register .C) .C) { small with wC := 182 } .C = some (0, 0x01) := by decide

/-- A28, A29, A30: rounding toward zero, and a zero quotient sets no flag. -/
theorem test_div :
    readAfter (.div (.constant 0xFFF9) .D) { small with wD := 2 } .D = some (-3) ∧
      readAfter (.div (.constant 7) .D) { small with wD := 0xFFFE } .D = some (-3) ∧
      wordFlags (.div (.constant 1) .D) { small with wD := 2 } .D = some (0, 0) := by decide

/-- A31, A33, A38: the two corners. -/
theorem test_div_corners :
    wordFlags (.div (.constant 7) .D) small .D = some (0, 0x02) ∧
      wordFlags (.div (.constant 0x8000) .D) { small with wD := 0xFFFF } .D = some (0, 0x01) ∧
      wordFlags (.div (.constant 1000) .DL) { small with wD := 0x5500 } .D = some (0x5500, 0x02) := by decide

/-- B1, B4. -/
theorem test_and :
    wordFlags (.and (.constant 0x0FF0) .A) { small with wA := 0x1234 } .A = some (0x0230, 0) ∧
      wordFlags (.and (.register .BL) .A) { small with wA := 0xFFFF, wB := 0x12F0 } .A = some (0x00F0, 0) := by decide

/-- B6. -/
theorem test_or : wordFlags (.or (.constant 0x0F0F) .AH) { small with wA := 0x1020 } .A = some (0x1F20, 0) := by decide

/-- B7, B9. -/
theorem test_xor :
    wordFlags (.xor (.register .A) .A) { small with wA := 0x5A5A } .A = some (0, 0) ∧
      wordFlags (.xor (.constant 0x01FF) .BL) { small with wB := 0x770F } .B = some (0x77F0, 0) := by decide

/-- B11, B12, B13. -/
theorem test_not :
    wordFlags (.not .A) { small with wA := 0x8000 } .A = some (0x7FFF, 0) ∧
      wordFlags (.not .AL) { small with wA := 0x12F0 } .A = some (0x120F, 0) ∧
      wordFlags (.not .AH) { small with wA := 0x12F0 } .A = some (0xEDF0, 0) := by decide

/-- S5, H1, H5, H9. -/
theorem test_shr :
    wordFlags (.shr (.constant 17) .B) { small with wB := 5 } .B = some (0, 0x01) ∧
      wordFlags (.shr (.constant 1) .B) { small with wB := 0x8000 } .B = some (0x4000, 0) ∧
      wordFlags (.shr (.constant 0xFFFF) .B) { small with wB := 7 } .B = some (0, 0x01) ∧
      wordFlags (.shr (.constant 1) .BL) { small with wB := 0x55FF } .B = some (0x557F, 0) := by decide

/-- H12, H16, H17, H18. -/
theorem test_shl :
    wordFlags (.shl (.constant 1) .B) { small with wB := 0x8000 } .B = some (0, 0) ∧
      wordFlags (.shl (.constant 8) .BL) { small with wB := 0x55FF } .B = some (0x5500, 0) ∧
      wordFlags (.shl (.register .AL) .B) { small with wA := 0x0110, wB := 1 } .B = some (0, 0x01) ∧
      wordFlags (.shl (.register .AL) .B) { small with wA := 0x0103, wB := 1 } .B = some (8, 0) := by decide

/-- K2, K3, K5. -/
theorem test_cmp :
    wordFlags (.cmp (.constant 6) .A) { small with wA := 5 } .A = some (5, 0x08) ∧
      wordFlags (.cmp (.constant 4) .A) { small with wA := 5 } .A = some (5, 0x10) ∧
      wordFlags (.cmp (.constant 0x8000) .A) { small with wA := 32767 } .A = some (32767, 0x10) := by decide

/-- K9, K10. -/
theorem test_cmp_sticky :
    wordFlags (.cmp (.register .AL) .B) { small with wA := 0x00FF, wB := 0xFFFF } .B = some (0xFFFF, 0x08) ∧
      wordFlags (.cmp (.register .A) .A) { small with wA := 77, flags := 0x18 } .A = some (77, 0x1C) := by decide

/-- Where a jump goes from `pc = 10` with the given flags. -/
def target (i : Instr) (flags : Byte) : Option Word :=
  (after (exec i { small with pc := 10, flags := flags })).map State.pc

/-- The table of jumps, Jmp and Jeq columns. -/
theorem test_jmp_jeq :
    ([0x00, 0x04, 0x08, 0x10, 0x1C, 0x03].map (target (.jmp (.constant 0x30)))) =
        [some 48, some 48, some 48, some 48, some 48, some 48] ∧
      ([0x00, 0x04, 0x08, 0x10, 0x1C, 0x03].map (target (.jeq (.constant 0x30)))) =
        [some 10, some 48, some 10, some 10, some 48, some 10] := by decide

/-- The table of jumps, Jne, Jgt and Jlt columns. -/
theorem test_jne_jgt_jlt :
    ([0x00, 0x04, 0x08, 0x10, 0x1C, 0x03].map (target (.jne (.constant 0x30)))) =
        [some 48, some 10, some 48, some 48, some 10, some 48] ∧
      ([0x00, 0x04, 0x08, 0x10, 0x1C, 0x03].map (target (.jgt (.constant 0x30)))) =
        [some 10, some 10, some 48, some 10, some 48, some 10] ∧
      ([0x00, 0x04, 0x08, 0x10, 0x1C, 0x03].map (target (.jlt (.constant 0x30)))) =
        [some 10, some 10, some 10, some 48, some 48, some 10] := by decide

/-- J1, J2, J3: the target is the pattern. -/
theorem test_jmp_pattern :
    (after (exec (.jmp (.register .D)) { small with wD := 0xFFFF })).map State.pc = some 0xFFFF ∧
      (after (exec (.jmp (.register .DL)) { small with wD := 0x1234 })).map State.pc = some 0x34 ∧
      (after (exec (.jmp (.register .DH)) { small with wD := 0x1234 })).map State.pc = some 0x12 := by decide

/-- `sp`, flags and cells after an instruction. -/
def stackAfter (i : Instr) (s : State) : Option ((Word × Byte) × List (Nat × Byte)) :=
  (after (exec i s)).map (fun t => ((t.sp, t.flags), t.mem.cells))

/-- T1, T9, T3: a push, an alias pushed as 16 bits, a push on a full stack. -/
theorem test_push :
    stackAfter (.push (.constant 0x1234)) small = some ((18, 0), [(16, 0x12), (17, 0x34)]) ∧
      stackAfter (.push (.register .AL)) { small with wA := 0x12FE } = some ((18, 0), [(17, 0xFE)]) ∧
      stackAfter (.push (.constant 7)) { small with sp := 20 } = some ((0, 0x01), []) := by decide

/-- T14, third push: the access is out of bounds and nothing is written. -/
theorem test_push_outOfBounds :
    haltAfter (.push (.constant 1)) { State.resetWith ⟨32, 28, 8, []⟩ with sp := 32 } =
      some (some (.fatal (.outOfBounds 32 2))) := by decide

/-- T5, T6, T13: an alias takes the low byte; an empty stack; `sp - 2` modulo 65536. -/
theorem test_pop :
    (after (exec (.pop .BL) { loaded [(16, 0x12), (17, 0x34)] with sp := 18 })).map (fun t => (t.sp, t.wB)) =
        some (16, 0x0034) ∧
      (after (exec (.pop .C) { small with wC := 9 })).map (fun t => (t.sp, t.flags, t.wC)) = some (0, 0x01, 9) ∧
      (after (exec (.pop .A) { State.resetWith ⟨65536, 16, 4, [(65534, 0xCA), (65535, 0xFE)]⟩ with sp := 0 })).map
        (fun t => (t.sp, t.wA)) = some (65534, 0xCAFE) := by decide

/-- T12. -/
theorem test_pop_outOfBounds :
    haltAfter (.pop .A) { small with sp := 0 } = some (some (.fatal (.outOfBounds 65534 2))) := by decide

/-! ## Steps -/

/-- S3's addition at address 0 after reset, reached by one step: `pc` advances by 3. -/
theorem test_step_withFetchWord :
    (after (step (({ State.reset with wA := 32767, wB := 4 } : State).withFetchWord 24 0x010413))).map
      (fun t => (t.wA, t.flags, t.pc, t.halt)) = some (0, 0x01, 3, none) := by decide

/-- R145: memory of zeros ends the run at once, and the halted machine has no step (R140). -/
theorem test_step_ends :
    (after (step State.reset)).map (fun t => (t.halt, t.endedNormally, t.pc)) =
        some (some (.decode (.unknownOpcode 0 0)), true, 0) ∧
      (after (step State.reset)).map (fun t => after (step t)) = some none := by decide

/-- J4, the next step: a target beyond memory fails at the fetch. -/
theorem test_step_beyond_memory :
    (after (step { small with pc := 100 })).map State.halt = some (some (.decode (.truncatedStream 100))) := by decide

/-! ## The switches' other values (93_implementation_defined.md U1, U14) -/

theorem test_switches :
    aliasValue .signExtend 0xFF = -1 ∧ aliasValue .zeroExtend 0xFF = 255 ∧ subExact .bMinusA 10 3 = -7 ∧
      (small.divOverflow .wrap .D).wD = 0x8000 ∧ (small.divOverflow .wrap .D).flags = 0 ∧
      (State.constSource small .immediate 0xFFFF .w16).toOption = some (-1) := by decide

/-! ## Statements whose hypotheses are met: encoding -/

/-- DecodeOfEncode: the longest stream form, ending at the last byte of memory. -/
theorem test_hyp_DecodeOfEncode :
    ∃ slot, encode (.load (.constant 0xABCD) (.constant 0x0102)) = .ok slot ∧
      ∀ k, k < (slot.getD 0 0).toNat / 8 → 0 + k < (bytesMem [0x08, 0xAB, 0xCD, 0x01, 0x02]).size ∧
        (bytesMem [0x08, 0xAB, 0xCD, 0x01, 0x02]).byteAt (0 + k) = slot.getD (k + 1) 0 :=
  ⟨_, rfl, by decide⟩

/-- EncodeOfDecode and BytesConsumed: an instruction that ends at the last byte of memory, and another memory with its
bytes. -/
theorem test_hyp_EncodeOfDecode_BytesConsumed :
    decodeAt (bytesMem [0, 0x99, 0x0C]) 1 = .ok (.pop .DL, 2) ∧ 1 + 2 ≤ (bytesMem [7, 0x99, 0x0C, 7]).size ∧
      ∀ k, k < 2 → (bytesMem [7, 0x99, 0x0C, 7]).byteAt (1 + k) = (bytesMem [0, 0x99, 0x0C]).byteAt (1 + k) :=
  ⟨rfl, by decide, by decide⟩

/-- SlotShape: both cases. -/
theorem test_hyp_SlotShape :
    Instr.wellFormed (.jmp (.constant 8)) = false ∧ Instr.wellFormed (.jmp (.register .D)) = true := by decide

/-- UnknownOpcodeExactly and OpcodeByteMap: an address in memory; the boundary bytes 0x07 and 0x08, 0x9F and 0xA0. -/
theorem test_hyp_UnknownOpcode_OpcodeByteMap :
    0 < (bytesMem [0x07]).size ∧ decodeAt (bytesMem [0x07]) 0 = .error (.unknownOpcode 0x07 0) ∧
      decodeAt (bytesMem [0x08]) 0 = .error (.truncatedStream 1) ∧
      decodeAt (bytesMem [0x9F]) 0 = .error (.reservedForm 0x9F 0) ∧
      decodeAt (bytesMem [0xA0]) 0 = .error (.unknownOpcode 0xA0 0) := ⟨by decide, rfl, rfl, rfl, rfl⟩

/-- InvalidRegisterCode, first operand byte: a register operand A, code 0; the two-byte form 0x61, code 13. -/
theorem test_hyp_InvalidRegisterCode_first :
    (0 + 1 < (bytesMem [0x0B, 0]).size ∧ lengthOfOpcodeByte 0x0B ≠ 0 ∧ flagA 0x0B = true ∧
        ((bytesMem [0x0B, 0]).byteAt 1).toNat = 0) ∧
      (0 + 1 < (bytesMem [0x61, 13]).size ∧ lengthOfOpcodeByte 0x61 = 2 ∧ 13 ≤ ((bytesMem [0x61, 13]).byteAt 1).toNat) := by
  decide

/-- InvalidRegisterCode, operand B: after the register code 12, and after an immediate. -/
theorem test_hyp_InvalidRegisterCode_second :
    (0 + 2 < (bytesMem [0x0B, 12, 13]).size ∧ lengthOfOpcodeByte 0x0B ≠ 0 ∧ flagA 0x0B = true ∧ flagB 0x0B = true ∧
        ¬ (((bytesMem [0x0B, 12, 13]).byteAt 1).toNat = 0 ∨ 13 ≤ ((bytesMem [0x0B, 12, 13]).byteAt 1).toNat) ∧
        13 ≤ ((bytesMem [0x0B, 12, 13]).byteAt 2).toNat) ∧
      (0 + 3 < (bytesMem [0x11, 0, 1, 0]).size ∧ lengthOfOpcodeByte 0x11 = 4 ∧ flagB 0x11 = true ∧
        ((bytesMem [0x11, 0, 1, 0]).byteAt 3).toNat = 0) := by decide

/-- TruncatedStream: an opcode byte beyond memory; a form that reaches one byte beyond memory. -/
theorem test_hyp_TruncatedStream :
    (bytesMem [0x0B, 0x01]).size ≤ 2 ∧ 0 < (bytesMem [0x0B, 0x01]).size ∧ lengthOfOpcodeByte 0x0B ≠ 0 ∧
      (bytesMem [0x0B, 0x01]).byteAt 0 = 0x0B ∧ (bytesMem [0x0B, 0x01]).size < 0 + lengthOfOpcodeByte 0x0B := by decide

/-! ## Statements whose hypotheses are met: registers, memory, reset -/

/-- AliasLaw: D with its two bytes. -/
theorem test_hyp_AliasLaw :
    regAcc .DH = regAcc .D ∧ regAcc .DL = regAcc .D ∧ regPart .D = .whole ∧ regPart .DH = .high ∧ regPart .DL = .low := by
  decide

/-- OperandRanges: a name of each width. -/
theorem test_hyp_OperandRanges : regWidth .D = .w16 ∧ regWidth .DH = .w8 ∧ regWidth .DL = .w8 := by decide

/-- ByteAccessors and WordAccessors: the last byte, and the last word. -/
theorem test_hyp_accessors : small.mem.wf = true ∧ 63 < small.mem.size ∧ 62 + 1 < small.mem.size := by decide

/-- MemoryCanonical: a store in the last word, and two canonical memories of one size. -/
theorem test_hyp_MemoryCanonical :
    small.mem.wf = true ∧ (∃ m', small.mem.store 62 .w16 0x1234 = .ok m') ∧
      (small.mem.setByte 1 0).wf = true ∧ small.mem.size = (small.mem.setByte 1 0).size ∧
      ∀ a, a < small.mem.size → small.mem.byteAt a = (small.mem.setByte 1 0).byteAt a :=
  ⟨by decide, ⟨_, rfl⟩, by decide, by decide, by decide⟩

/-- ResetMemory: an image with a byte at the last address. -/
theorem test_hyp_ResetMemory :
    launchImageFits ⟨4, 0, 0, [(3, 0x12), (0, 0x99)]⟩ ∧ (([(3, 0x12), (0, 0x99)] : List (Nat × Byte)).map Prod.fst).Nodup := by
  decide

/-- ResetInvariant: the least and the greatest memory. -/
theorem test_hyp_ResetInvariant : launchSizeOk ⟨1, 0, 0, []⟩ ∧ launchSizeOk ⟨65536, 0, 0, []⟩ := by decide

/-! ## Statements whose hypotheses are met: the step -/

/-- StepRunsDecoded and StepUntilHalted. -/
theorem test_hyp_StepRunsDecoded :
    (loaded [(0, 0x99), (1, 0x0C)]).halt = none ∧
      decodeAt (loaded [(0, 0x99), (1, 0x0C)]).mem (loaded [(0, 0x99), (1, 0x0C)]).pc.toNat = .ok (.pop .DL, 2) :=
  ⟨rfl, rfl⟩

/-- StepDecodeError and ZeroByteEndsNormally, at the last address. -/
theorem test_hyp_StepDecodeError_ZeroByte :
    small.halt = none ∧ (small.setPc 63).pc.toNat < small.mem.size ∧ small.mem.byteAt 63 = 0 ∧
      decodeAt small.mem 63 = .error (.unknownOpcode 0 63) := ⟨rfl, by decide, rfl, rfl⟩

/-- StepKeepsInvariant and GeometryFixed: a state with the invariant that steps. -/
theorem test_hyp_StepKeepsInvariant : small.Inv ∧ ∃ t, step small = .next t :=
  ⟨⟨by decide, by decide, by decide⟩, _, rfl⟩

/-- FlagsSticky, FlagsSetByTable and Writers: an instruction that sets a flag where another is set, and steps. -/
theorem test_hyp_flags :
    (∃ t, exec (.div (.constant 1) .A) { small with flags := 0x01 } = .next t ∧ t.flag .zero = true) ∧
      ({ small with flags := 0x01 } : State).flag .overflow = true ∧ ∃ t, step { small with flags := 0x01 } = .next t :=
  ⟨⟨_, rfl, by decide⟩, by decide, _, rfl⟩

/-- Writers: the instruction pointer, the stack pointer and a byte of memory do change. -/
theorem test_hyp_Writers :
    (∃ t, exec (.jmp (.constant 5)) small = .next t ∧ t.pc ≠ small.pc) ∧
      (∃ t, exec (.push (.constant 1)) small = .next t ∧ t.sp ≠ small.sp ∧ t.mem.byteAt 17 ≠ small.mem.byteAt 17) ∧
      ∃ t, exec (.load (.constant 16) (.constant 62)) (loaded [(16, 1)]) = .next t ∧ t.mem.byteAt 62 ≠ 0 :=
  ⟨⟨_, rfl, by decide⟩, ⟨_, rfl, by decide, by decide⟩, _, rfl, by decide⟩

/-- FatalFaultWritesNothing: a step that halts by a width mismatch. -/
theorem test_hyp_FatalFault :
    ∃ t, step (loaded [(0, 0x0B), (1, 1), (2, 6)]) = .next t ∧ t.halt = some (.fatal (.loadWidthMismatch .A .BL)) :=
  ⟨_, rfl, by decide⟩

/-- A machine whose `pc` is 62, the last word of memory, with A = 0x07A0. -/
def atLastWord : State := { small with wA := 0x07A0, pc := 62 }

/-- StoreSeenByNextFetch: the forms that store, each at the end of memory, where `pc` stands. -/
theorem test_hyp_StoreSeen :
    atLastWord.mem.wf = true ∧ atLastWord.halt = none ∧
      storeOf (.load (.register .A) (.constant 62)) atLastWord = some (62, [0x07, 0xA0]) ∧
      storeOf (.load (.register .AL) (.constant 63)) atLastWord = some (63, [0xA0]) ∧
      storeOf (.load (.constant 0) (.constant 62)) atLastWord = some (62, [0, 0]) ∧
      storeOf (.push (.register .A)) { atLastWord with sp := 62 } = some (62, [0x07, 0xA0]) ∧
      62 + 2 ≤ atLastWord.mem.size ∧ 63 + 1 ≤ atLastWord.mem.size ∧ (0 : Word).toNat + 2 ≤ atLastWord.mem.size := by
  decide

/-- StoreSeenByNextFetch, the next step: a stored Not(A) runs; the stored bytes 0x07 and 0xA0 halt it. -/
theorem test_hyp_StoreSeen_step :
    decodeAt (bytesMem [0x61, 0x01]) 0 = .ok (.not .A, 2) ∧ byteOver (bytesMem [0, 0]) 0 [0x61, 0x01] 0 = 0x61 ∧
      byteOver (bytesMem [0, 0]) 0 [0x61, 0x01] 1 = 0x01 ∧
      (([0x07, 0xA0] : List Byte)[62 - 62]? = some 0x07 ∧ (0x07 : Byte).toNat ≤ 0x07) ∧
      (([0x07, 0xA0] : List Byte)[63 - 62]? = some 0xA0 ∧ 0xA0 ≤ (0xA0 : Byte).toNat) := ⟨rfl, by decide⟩

/-- StickyFlagHazard: flags set, and one step further (Cmp(Register(A), C) at address 0). -/
theorem test_hyp_StickyFlag :
    (∃ t, Host.Core.run Sys2Proof.core 1 { loaded [(0, 0x5B), (1, 1), (2, 7)] with flags := 0x1C } = .next t) ∧
      (∀ f, f = .equal ∨ f = .greaterThan ∨ f = .lowerThan →
        ({ loaded [(0, 0x5B), (1, 1), (2, 7)] with flags := 0x1C } : State).flag f = true) :=
  ⟨⟨_, rfl⟩, by intro f; cases f <;> decide⟩

/-- The cases of the arithmetic and shift statements, at the values where they meet: the range rule (32767, 32768,
-32768, -32769), the shift guard (15, 16), Div's corners (0; -32768 by -1; -32768 by 1). -/
theorem test_hyp_cases :
    (fitsS16 (({ small with wA := 32766 } : State).readReg .A + small.resolve (.constant 1)) ∧
        ¬ fitsS16 (({ small with wA := 32767 } : State).readReg .A + small.resolve (.constant 1))) ∧
      (fitsS16 (small.resolve (.constant 0x8000) - small.readReg .A) ∧
        ¬ fitsS16 (small.resolve (.constant 0x8000) - ({ small with wA := 1 } : State).readReg .A)) ∧
      ((u16 (small.resolve (.constant 15))).toNat ≤ 15 ∧ 15 < (u16 (small.resolve (.constant 16))).toNat) ∧
      (small.readReg .A = 0 ∧ small.resolve (.constant 0x8000) = -32768 ∧
        ({ small with wA := 0xFFFF } : State).readReg .A = -1 ∧ ({ small with wA := 1 } : State).readReg .A ≠ 0) := by decide

/-! ## Statements whose hypotheses are met: Load and the stack -/

/-- The Load statements: widths equal and different; the last word and the last byte in bounds, the next out of bounds. -/
theorem test_hyp_Load :
    regWidth .AH = regWidth .BL ∧ regWidth .A = regWidth .D ∧ regWidth .A ≠ regWidth .BL ∧ small.mem.wf = true ∧
      (62 : Word).toNat + 2 ≤ small.mem.size ∧ (63 : Word).toNat + 1 ≤ small.mem.size ∧
      ¬ (63 : Word).toNat + accessBytes (regWidth .A) ≤ small.mem.size ∧
      ¬ (64 : Word).toNat + accessBytes (regWidth .AL) ≤ small.mem.size := by decide

/-- PushStores, PopAfterPush: the last free word of the stack; StackFaultPaths, full and empty. -/
theorem test_hyp_Push :
    small.mem.wf = true ∧ regWidth .A = .w16 ∧ (18 : Word) - small.sbase ≠ small.ssize ∧ (18 : Word) + 2 ≠ small.sbase ∧
      (18 : Word).toNat + 2 ≤ small.mem.size ∧ (20 : Word) - small.sbase = small.ssize ∧ small.sp = small.sbase := by decide

/-- PopLoads; StackOutOfBounds for Push at the last byte and for Pop below address 0. -/
theorem test_hyp_Pop_outOfBounds :
    ((18 : Word) ≠ small.sbase ∧ ((18 : Word) - 2).toNat + 2 ≤ small.mem.size) ∧
      ((63 : Word) - small.sbase ≠ small.ssize ∧ ¬ (63 : Word).toNat + 2 ≤ small.mem.size) ∧
      ((0 : Word) ≠ small.sbase ∧ ¬ ((0 : Word) - 2).toNat + 2 ≤ small.mem.size) := by decide

/-- StackCapacity: both of the two words of the stack. -/
theorem test_hyp_StackCapacity :
    small.mem.wf = true ∧ small.StackGeometry ∧ small.sp = small.sbase ∧
      2 * ([.constant 1, .constant 2] : List Operand).length = small.ssize.toNat :=
  ⟨by decide, ⟨by decide, by decide, by decide⟩, by decide, by decide⟩

/-- StackInvariantKept: a push that fills the stack; a stack fault where the base is 0. -/
theorem test_hyp_StackInvariantKept :
    (small.StackGeometry ∧ small.sbase.toNat + small.ssize.toNat < 65536 ∧ (small.setSp 18).StackInv ∧
        (∃ t, exec (.push (.constant 1)) (small.setSp 18) = .next t) ∧ ¬ stackFaults (.push (.constant 1)) (small.setSp 18)) ∧
      ((State.resetWith ⟨64, 0, 4, []⟩).StackGeometry ∧ (State.resetWith ⟨64, 0, 4, []⟩).StackInv ∧
        (State.resetWith ⟨64, 0, 4, []⟩).sbase = 0 ∧ ∃ t, exec (.pop .A) (State.resetWith ⟨64, 0, 4, []⟩) = .next t) :=
  ⟨⟨⟨by decide, by decide, by decide⟩, by decide, ⟨by decide, by decide, by decide⟩, ⟨_, rfl⟩,
    by show ¬ ((18 : Word) - 16 = 4); decide⟩,
    ⟨by decide, by decide, by decide⟩, ⟨by decide, by decide, by decide⟩, by decide, _, rfl⟩

/-- StackInvariantKept, premise R152 c: the addresses next to the stack region, on either side. -/
theorem test_hyp_StackApart :
    small.StackApart [0, 15, 20, 63] ∧ ¬ small.StackApart [16] ∧ ¬ small.StackApart [19] := by
  simp only [State.StackApart]
  decide

/-- The launch premises R152 a to c together; and an image, and data, that overlap the stack region. -/
theorem test_launchPremises :
    LaunchPremises ⟨64, 16, 4, [(15, 0x99), (20, 0x0C)]⟩ [63] ∧ ¬ launchStackApart ⟨64, 16, 4, [(19, 0x99)]⟩ [] ∧
      ¬ launchStackApart ⟨64, 16, 4, []⟩ [16] :=
  ⟨⟨by decide, by decide, by decide, by decide, by decide⟩, by decide, by decide⟩

/-- HostMovesBounded: a word written at the last word, a push, and the two stack faults. -/
theorem test_hyp_HostMovesBounded :
    small.Inv ∧ (∃ t, hostApply (.writeWord 62 (-2)) small = .ok t) ∧
      (∃ t, hostApply (.push 5) small = .ok t ∧ t.flag .overflow = false) ∧
      (∃ t, hostApply (.push 5) { small with sp := 20 } = .ok t ∧ t.flag .overflow = true) ∧
      ∃ t, hostApply (.pop .A) small = .ok t ∧ t.flag .overflow = true :=
  ⟨⟨by decide, by decide, by decide⟩, ⟨_, rfl⟩, ⟨_, rfl, by decide⟩, ⟨_, rfl, by decide⟩, _, rfl, by decide⟩

/-- HostMovesBounded: accesses at the last word, one byte beyond it, and none on a stack fault. -/
theorem test_hyp_hostAccess :
    hostAccess (.writeWord 62 1) small = some (62, 2) ∧ 62 + 2 ≤ small.mem.size ∧ ¬ 63 + 2 ≤ small.mem.size ∧
      hostAccess (.writeByte 64 1) small = some (64, 1) ∧ ¬ 64 + 1 ≤ small.mem.size ∧
      hostAccess (.push 5) { small with sp := 20 } = none ∧ hostAccess (.pop .A) small = none ∧
      hostAccess (.pop .A) { small with sp := 0 } = some (65534, 2) := by decide

/-- ZeroByteEndsNormally: the byte 0x00 against another unknown opcode, a fatal fault, and no halt. -/
theorem test_hyp_endedNormally :
    (small.enterHalt (.decode (.unknownOpcode 0 9))).endedNormally = true ∧
      (small.enterHalt (.decode (.unknownOpcode 1 9))).wentWrong = true ∧
      (small.enterHalt (.fatal (.outOfBounds 63 2))).wentWrong = true ∧ small.endedNormally = false ∧
      small.wentWrong = false := by decide

/-- The host may write a halted machine (the model's choice, log 14): it stays halted. -/
theorem test_host_halted :
    (hostApply (.writeByte 3 0x12) (small.enterHalt (.decode (.unknownOpcode 0 0)))).toOption.map
      (fun t => (t.mem.cells, t.halt)) = some ([(3, 0x12)], some (.decode (.unknownOpcode 0 0))) := by decide

end Sys2Proof.Tests
end

section
/-! PROOFS. The statements of the family of spec/10_state.md: registers, flags, reset, the instruction cycle, and what
every instruction, step and host move keeps. -/

namespace Sys2Proof.Machine

/-! ## Bytes of a pattern -/

theorem hiByte_toNat (p : Word) : (hiByte p).toNat = p.toNat / 256 := by
  have := p.isLt
  simp only [hiByte, BitVec.extractLsb'_toNat, Nat.shiftRight_eq_div_pow]
  omega

theorem loByte_toNat (p : Word) : (loByte p).toNat = p.toNat % 256 := by
  simp [loByte, BitVec.extractLsb'_toNat]

/-- A pattern is the word of its two bytes. -/
theorem eq_bytesToWord {p : Word} {h l : Byte} (hh : hiByte p = h) (hl : loByte p = l) : p = bytesToWord h l := by
  rw [← hh, ← hl, bytesToWord_hiByte_loByte]

/-- The signed value of a pattern, reduced to a byte, is the pattern's low byte. -/
theorem s16_mod_256 (p : Word) : s16 p % 256 = ((loByte p).toNat : Int) := by
  rw [← u8_toNat_eq, ← loByte_u16, u16_s16]

/-! ## The state a step or a move leaves, by what it keeps -/

/-- The invariant speaks of memory and of bits 7:5 of the flags only. -/
theorem State.Inv.of_same {s t : State} (h : s.Inv) (hs : t.mem.size = s.mem.size)
    (hw : s.mem.wf = true → t.mem.wf = true) (hr : SameReserved s t) : t.Inv :=
  ⟨hw h.memory, by rw [hs]; exact h.size, hr.trans h.reserved⟩

theorem SameFlags.reserved {s t : State} (h : SameFlags s t) : SameReserved s t := by
  simp only [SameReserved, show t.flags = s.flags from h]

theorem SameFlags.flag_eq {s t : State} (h : SameFlags s t) (f : Flag) : t.flag f = s.flag f := by
  simp only [State.flag, show t.flags = s.flags from h]

/-- Flags left alone are flags set on a condition that fails. -/
theorem SameFlags.flagSetIff {s t : State} (h : SameFlags s t) {p : Prop} (hp : ¬ p) (f : Flag) : FlagSetIff f p s t :=
  ⟨by simp [h.flag_eq, hp], fun g _ => h.flag_eq g, h.reserved⟩

/-- Setting a flag (10_state.md R18), as a condition that holds. -/
theorem State.flagSetIff_true_setFlag (s : State) (f : Flag) : FlagSetIff f True s (s.setFlag f) :=
  ⟨by simp, fun g hg => by simp [hg], s.setFlag_reserved f⟩

theorem FlagSetIff.congr {f : Flag} {p q : Prop} {s t : State} (h : FlagSetIff f p s t) (hpq : p ↔ q) :
    FlagSetIff f q s t := by rwa [← propext hpq]

/-- What `FlagSetIff` says of any flag. -/
theorem FlagSetIff.flag_iff {g : Flag} {p : Prop} {s t : State} (h : FlagSetIff g p s t) (f : Flag) :
    t.flag f = true ↔ s.flag f = true ∨ (f = g ∧ p) := by
  obtain ⟨hset, hother, _⟩ := h
  by_cases hf : f = g
  · subst hf; simpa using hset
  · simp [hother f hf, hf]

theorem State.stackFault_reserved (s : State) : SameReserved s s.stackFault := by
  obtain ⟨_, _, h⟩ := s.stackFault_flags
  exact h

/-! ## What every form of `Effect` keeps -/

namespace Effect

variable {s t : State} {i : Instr}

theorem mem_size (h : Effect s i t) : t.mem.size = s.mem.size := by
  cases h with
  | store a k m hs hw => exact hs
  | push a m hf hb hs hw => exact hs
  | _ => simp

theorem mem_wf (h : Effect s i t) (hm : s.mem.wf = true) : t.mem.wf = true := by
  cases h with
  | store a k m hs hw => exact hw hm
  | push a m hf hb hs hw => exact hw hm
  | _ => simpa using hm

theorem reserved (h : Effect s i t) : SameReserved s t := by
  cases h with
  | full a hf => exact s.stackFault_reserved
  | empty r he => exact s.stackFault_reserved
  | _ => simp [SameReserved]

theorem geometry (h : Effect s i t) : t.sbase = s.sbase ∧ t.ssize = s.ssize := by
  cases h <;> exact ⟨by simp, by simp⟩

theorem keeps_inv (h : Effect s i t) (hs : s.Inv) : t.Inv := hs.of_same h.mem_size h.mem_wf h.reserved

/-- No form of effect clears a flag (10_state.md R18): the forms that set one set it over the others. -/
theorem flag_sticky (h : Effect s i t) {f : Flag} (hf : s.flag f = true) : t.flag f = true := by
  cases h with
  | full a _ => exact (s.stackFault_flags.flag_iff f).mpr (.inl hf)
  | empty r _ => exact (s.stackFault_flags.flag_iff f).mpr (.inl hf)
  | _ => simp [hf]

/-- Only a jump writes `pc` (10_state.md R20). -/
theorem jump_of_pc_ne (h : Effect s i t) (hpc : t.pc ≠ s.pc) :
    ∃ a, i = .jmp a ∨ i = .jeq a ∨ i = .jne a ∨ i = .jgt a ∨ i = .jlt a := by
  cases h with
  | jump i v hj => exact hj
  | _ => simp at hpc

/-- Only Push and Pop write the stack pointer (10_state.md R23). -/
theorem stack_of_sp_ne (h : Effect s i t) (hsp : t.sp ≠ s.sp) : (∃ a, i = .push a) ∨ ∃ r, i = .pop r := by
  cases h with
  | push a m hf hb hs hw => exact .inl ⟨a, rfl⟩
  | full a hf => exact .inl ⟨a, rfl⟩
  | pop r v he hb => exact .inr ⟨r, rfl⟩
  | empty r he => exact .inr ⟨r, rfl⟩
  | _ => simp at hsp

/-- Only Load into memory and Push write a byte (20_memory.md R38). -/
theorem store_of_mem_ne (h : Effect s i t) (hm : t.mem ≠ s.mem) :
    (∃ a k, i = .load a (.constant k)) ∨ ∃ a, i = .push a := by
  cases h with
  | store a k m hs hw => exact .inl ⟨a, k, rfl⟩
  | push a m hf hb hs hw => exact .inr ⟨a, rfl⟩
  | _ => simp at hm

end Effect

/-! ## What every step keeps -/

/-- Settles O28: the invariant is kept by the advance of `pc`, by every effect of an instruction, and by a halt. -/
theorem stepKeepsInvariant : Obligations.StepKeepsInvariant := by
  intro s t hs hstep
  obtain ⟨_, ⟨i, n, _, _, he⟩ | ⟨e, _, rfl⟩⟩ := step_cases hstep
  · have hadv : (s.advance n).Inv := ⟨hs.memory, hs.size, hs.reserved⟩
    exact he.keeps_inv hadv
  · exact ⟨hs.memory, hs.size, hs.reserved⟩

/-- Settles O29: no effect of an instruction clears a flag, and neither the advance of `pc` nor a halt touches one. -/
theorem flagsSticky : Obligations.FlagsSticky := by
  refine ⟨fun i s t f hx hf => (effect_of_exec hx).flag_sticky hf, fun s t f hstep hf => ?_⟩
  obtain ⟨_, ⟨i, n, _, _, he⟩ | ⟨e, _, rfl⟩⟩ := step_cases hstep
  · exact he.flag_sticky hf
  · exact hf

/-- Settles O31: no effect of an instruction, and no halt, writes the geometry of stack and memory. -/
theorem geometryFixed : Obligations.GeometryFixed := by
  intro s t hstep
  obtain ⟨_, ⟨i, n, _, _, he⟩ | ⟨e, _, rfl⟩⟩ := step_cases hstep
  · exact ⟨he.geometry.1, he.geometry.2, he.mem_size⟩
  · exact ⟨rfl, rfl, rfl⟩

/-- Settles O32: each form of effect that writes `pc`, `sp` or memory belongs to the instructions named. -/
theorem writers : Obligations.Writers := by
  intro i s t hx
  have he := effect_of_exec hx
  refine ⟨he.jump_of_pc_ne, he.stack_of_sp_ne, fun x hb => he.store_of_mem_ne fun hm => hb ?_⟩
  rw [hm]

/-- Settles O25: `step` on its decoded branch, and the frame of the advance. -/
theorem stepRunsDecoded : Obligations.StepRunsDecoded := by
  intro s i n hh hd
  refine ⟨step_of_ok hh hd, ?_, fun q => s.advance_readReg n q, rfl, ⟨rfl, fun _ => rfl⟩, rfl, rfl, rfl, rfl⟩
  simp

/-! ## Registers -/

/-- A register write, seen in the accumulator of its name (10_state.md R14). -/
theorem State.acc_writeReg (s : State) {r : Reg} {g : Acc} (h : regAcc r = g) (v : Int) :
    (s.writeReg r v).acc g = partWrite (regPart r) (s.acc g) v := by
  subst h
  exact s.setAcc_acc_same _ _

/-- Both bytes of a pattern written, the low one first. -/
theorem partWrite_low_high (w : Word) (x y : Byte) :
    partWrite .high (partWrite .low w x.toNat) y.toNat = bytesToWord y x :=
  eq_bytesToWord (by rw [hiByte_partWrite_high, u8_toNat])
    (by rw [loByte_partWrite_high, loByte_partWrite_low, u8_toNat])

/-- Both bytes of a pattern written, the high one first. -/
theorem partWrite_high_low (w : Word) (x y : Byte) :
    partWrite .low (partWrite .high w y.toNat) x.toNat = bytesToWord y x :=
  eq_bytesToWord (by rw [hiByte_partWrite_low, hiByte_partWrite_high, u8_toNat])
    (by rw [loByte_partWrite_low, u8_toNat])

/-- A high alias reads as its byte, unsigned (10_state.md R13, decision D13). -/
theorem partValue_high (w : Word) : partValue .high w = ((w.toNat / 256 : Nat) : Int) := by
  simp only [partValue, aliasValue, Settings.aliasRead, hiByte_toNat]

/-- A low alias reads as its byte, unsigned (R13, D13). -/
theorem partValue_low (w : Word) : partValue .low w = ((w.toNat % 256 : Nat) : Int) := by
  simp only [partValue, aliasValue, Settings.aliasRead, loByte_toNat]

/-- Settles O14: two alias writes leave both bytes of the accumulator, in either order, and a 16-bit write its pattern. -/
theorem aliasLaw : Obligations.AliasLaw := by
  intro s g h l hh hl hg hph hpl
  refine ⟨fun x y => ⟨?_, ?_⟩, fun v => ?_⟩
  · rw [State.acc_writeReg _ hh, State.acc_writeReg _ hl, hph, hpl]
    exact partWrite_low_high _ x y
  · rw [State.acc_writeReg _ hl, State.acc_writeReg _ hh, hph, hpl]
    exact partWrite_high_low _ x y
  · have hw : (s.writeReg g v).acc (regAcc g) = u16 v := by rw [State.acc_writeReg _ rfl, hg]; rfl
    simp only [State.readReg, hh, hl, hph, hpl, hw, partValue_high, partValue_low]
    exact ⟨rfl, rfl⟩

/-- Settles O15, from the laws of the register accessors. -/
theorem registerWrite : Obligations.RegisterWrite :=
  fun s r v => ⟨s.readReg_writeReg_same r v, onlyReg_writeReg s r v, sameFlags_writeReg s r v⟩

/-- The signed value of a pattern, by its unsigned one (00_scope.md §7). -/
theorem s16_eq_ite (k : Word) : s16 k = if k.toNat < 32768 then (k.toNat : Int) else (k.toNat : Int) - 65536 := by
  simp only [s16, BitVec.toInt_eq_toNat_cond]
  split <;> split <;> omega

/-- Settles O16: what each part of an accumulator reads as, and the range of each width. -/
theorem operandRanges : Obligations.OperandRanges := by
  intro s
  refine ⟨fun r => ?_, fun r hw => ?_, fun r hw => ?_, fun r => rfl, fun k => s16_eq_ite k, fun k => u16_s16 k,
    s.fitsS16_resolve⟩
  · simp only [State.readReg]
    cases regPart r with
    | whole => rfl
    | high => exact partValue_high _
    | low => exact partValue_low _
  · exact s.fitsS16_readReg r
  · have h := s.readReg_range r
    rwa [hw] at h

/-! ## Flags -/

/-- A flag is set exactly when its mask lies in the flags byte (10_state.md R17). -/
theorem State.flag_iff_mask (s : State) (f : Flag) : s.flag f = true ↔ s.flags &&& flagMask f = flagMask f := by
  have hmask : flagMask f = BitVec.twoPow 8 f.bit := (BitVec.twoPow_eq ..).symm
  have hne : flagMask f ≠ 0#8 := by cases f <;> decide
  rw [hmask] at hne ⊢
  rw [BitVec.and_twoPow]
  cases hf : s.flags.getLsbD f.bit with
  | true => simp [State.flag, hf]
  | false => simpa [State.flag, hf] using hne.symm

/-- Settles O17: each literal mask is `flagMask`. -/
theorem flagBits : Obligations.FlagBits := by
  intro s f mask
  have hm : mask = flagMask f := by cases f <;> rfl
  rw [hm]
  exact ⟨s.flag_iff_mask f, rfl, s.flagSetIff_true_setFlag f, fun q => s.setFlag_readReg f q, ⟨rfl, fun _ => rfl⟩,
    rfl, rfl, rfl, rfl, rfl⟩

/-! ## Register codes -/

/-- Every number of 1 to 12 is a register's code (10_state.md R12). -/
theorem Reg.exists_code_toNat : ∀ n < 13, 0 < n → ∃ r ∈ Reg.all, r.code.toNat = n := by decide

theorem Reg.code_toNat_range (r : Reg) : 0 < r.code.toNat ∧ r.code.toNat < 13 := by cases r <;> decide

/-- Settles O11: `Reg.ofCode` inverts `Reg.code`, whose values are 1 to 12 and no others. -/
theorem registerCodes : Obligations.RegisterCodes := by
  refine ⟨rfl, fun r => by cases r <;> decide, fun c r => ⟨Reg.code_of_ofCode, ?_⟩,
    fun c => ⟨fun hnone => ?_, fun hc => ?_⟩⟩
  · rintro rfl
    exact Reg.ofCode_code r
  · by_contra hc
    obtain ⟨r, _, hr⟩ := Reg.exists_code_toNat c.toNat (by omega) (by omega)
    have hcode : r.code = c := BitVec.eq_of_toNat_eq hr
    rw [← hcode, Reg.ofCode_code] at hnone
    cases hnone
  · cases hr : Reg.ofCode c with
    | none => rfl
    | some r =>
      have := Reg.code_toNat_range r
      rw [Reg.code_of_ofCode hr] at this
      omega

/-! ## Reset -/

theorem State.resetWith_acc (p : Launch) (g : Acc) : (State.resetWith p).acc g = 0 := by cases g <;> rfl

theorem State.resetWith_flags (p : Launch) : (State.resetWith p).flags = 0 := rfl

theorem partValue_zero (q : Part) : partValue q 0 = 0 := by cases q <;> rfl

/-- Settles O22: every accumulator and the flags byte are 0 after reset. -/
theorem resetRegisters : Obligations.ResetRegisters := by
  refine ⟨fun p => ⟨fun r => ?_, fun f => ?_, rfl, rfl, rfl, rfl, Memory.place_size _ _, rfl⟩, rfl⟩
  · rw [State.readReg, State.resetWith_acc, partValue_zero]
  · simp [State.flag, State.resetWith_flags]

/-- A byte the image names, once, is the image's byte after placing it (10_state.md R27). -/
theorem Memory.byteAt_place_mem {image : List (Nat × Byte)} :
    ∀ {m : Memory}, m.wf = true → (∀ c ∈ image, c.1 < m.size) → (image.map Prod.fst).Nodup →
      ∀ c ∈ image, (m.place image).byteAt c.1 = c.2 := by
  induction image with
  | nil => intro m _ _ _ c hc; cases hc
  | cons d rest ih =>
    intro m hw hfit hnd c hc
    obtain ⟨a, b⟩ := d
    have ha : a < m.size := hfit (a, b) (by simp)
    obtain ⟨hnew, hnd'⟩ := List.nodup_cons.mp hnd
    simp only [Memory.place, if_pos ha]
    rcases List.mem_cons.mp hc with rfl | hc
    · have hother : ∀ d ∈ rest, d.1 ≠ a := fun d hd he => hnew (List.mem_map.mpr ⟨d, hd, he⟩)
      rw [Memory.byteAt_place_other _ _ hother, Memory.byteAt_setByte_same hw]
    · exact ih (Memory.wf_setByte hw b ha) (fun d hd => hfit d (by simp [hd])) hnd' c hc

/-- Settles O23: named bytes by `byteAt_place_mem`, the others read as blank memory. -/
theorem resetMemory : Obligations.ResetMemory := by
  intro p hfit hnd
  refine ⟨Memory.byteAt_place_mem (Memory.wf_blank _) hfit hnd, fun a ha => ?_⟩
  have hother : ∀ c ∈ p.image, c.1 ≠ a := fun c hc he => ha (List.mem_map.mpr ⟨c, hc, he⟩)
  exact Memory.byteAt_place_other (Memory.blank p.memSize) p.image hother

theorem State.resetWith_inv {p : Launch} (h : launchSizeOk p) : (State.resetWith p).Inv :=
  ⟨Memory.wf_place (Memory.wf_blank _) _, (Memory.place_size (Memory.blank p.memSize) p.image).symm ▸ h,
    by simp [State.resetWith_flags]⟩

/-- Settles O24: placing an image keeps blank memory canonical and its size. -/
theorem resetInvariant : Obligations.ResetInvariant :=
  ⟨fun _ h => State.resetWith_inv h, State.resetWith_inv (by decide)⟩

/-! ## Push and Pop by their paths -/

/-- Everything the effect of Push can do (44_stack.md R120). -/
theorem State.pushValue_cases (s : State) (v : Int) :
    (s.sp - s.sbase = s.ssize ∧ s.pushValue v = .ok s.stackFault) ∨
    (s.sp - s.sbase ≠ s.ssize ∧ s.sp.toNat + 2 ≤ s.mem.size ∧
      s.pushValue v = .ok ((s.setMem (s.mem.setWord s.sp.toNat (u16 v))).setSp (s.sp + 2))) ∨
    (s.sp - s.sbase ≠ s.ssize ∧ ¬ s.sp.toNat + 2 ≤ s.mem.size ∧
      s.pushValue v = .error (.outOfBounds s.sp.toNat 2)) := by
  by_cases hf : s.sp - s.sbase = s.ssize
  · exact .inl ⟨hf, s.pushValue_full v hf⟩
  · by_cases hb : s.sp.toNat + 2 ≤ s.mem.size
    · exact .inr (.inl ⟨hf, hb, s.pushValue_ok v hf hb⟩)
    · exact .inr (.inr ⟨hf, hb, s.pushValue_error v hf hb⟩)

/-- Everything the effect of Pop can do (44_stack.md R121). -/
theorem State.popInto_cases (s : State) (r : Reg) :
    (s.sp = s.sbase ∧ s.popInto r = .ok s.stackFault) ∨
    (s.sp ≠ s.sbase ∧ (s.sp - 2).toNat + 2 ≤ s.mem.size ∧
      s.popInto r = .ok ((s.setSp (s.sp - 2)).writeReg r
        (s16 (bytesToWord (s.mem.byteAt (s.sp - 2).toNat) (s.mem.byteAt ((s.sp - 2).toNat + 1)))))) ∨
    (s.sp ≠ s.sbase ∧ ¬ (s.sp - 2).toNat + 2 ≤ s.mem.size ∧
      s.popInto r = .error (.outOfBounds (s.sp - 2).toNat 2)) := by
  by_cases he : s.sp = s.sbase
  · exact .inl ⟨he, s.popInto_empty r he⟩
  · by_cases hb : (s.sp - 2).toNat + 2 ≤ s.mem.size
    · exact .inr (.inl ⟨he, hb, s.popInto_ok r he hb⟩)
    · exact .inr (.inr ⟨he, hb, s.popInto_error r he hb⟩)


/-! ## Exactly what sets each flag -/

/-- The flags of `t` are those of `s` and the ones the rows of instruction `i` name (10_state.md R19). -/
def FlagsByTable (i : Instr) (s t : State) : Prop :=
  ∀ f : Flag, t.flag f = true ↔ s.flag f = true ∨ flagCause f i s

/-- An instruction with one row that can hold sets that row's flag on the row's condition. -/
theorem FlagSetIff.byTable {g : Flag} {p : Prop} {i : Instr} {s t : State} (h : FlagSetIff g p s t)
    (hc : ∀ f, flagCause f i s ↔ f = g ∧ p) : FlagsByTable i s t := fun f => by rw [h.flag_iff, hc]

/-- An instruction none of whose rows holds leaves the flags alone. -/
theorem SameFlags.byTable {i : Instr} {s t : State} (h : SameFlags s t) (hc : ∀ f, ¬ flagCause f i s) :
    FlagsByTable i s t := fun f => by rw [h.flag_eq, or_iff_left (hc f)]

theorem sameFlags_jumpIf (s : State) (taken : Bool) (a : Operand) : SameFlags s (s.jumpIf taken a) := by
  cases taken <;> rfl

/-- No form of Load writes a flag (40_load.md R85). -/
theorem exec_load_sameFlags {a b : Operand} {s t : State} (h : exec (.load a b) s = .next t) : SameFlags s t := by
  rcases s.loadForm_cases a b with ⟨r, v, _, hl⟩ | ⟨k, m, _, hl, _⟩ | ⟨f, hl⟩
  · rw [exec_load_of_ok hl] at h; cases h; exact sameFlags_writeReg s r v
  · rw [exec_load_of_ok hl] at h; cases h; rfl
  · rw [exec_load_of_error hl] at h; cases h; rfl

/-- The row of Cmp that holds is that of the flag it sets (43_compare_jump.md R110). -/
theorem flagCause_cmp (f : Flag) (a : Operand) (r : Reg) (s : State) :
    flagCause f (.cmp a r) s ↔ f = compareFlag (s.resolve a) (s.readReg r) := by
  rcases lt_trichotomy (s.resolve a) (s.readReg r) with h | h | h
  · rw [compareFlag, if_neg h.ne, if_neg h.not_gt]
    cases f <;> simp [flagCause, h, h.ne, h.not_gt]
  · rw [compareFlag, if_pos h]
    cases f <;> simp [flagCause, h]
  · rw [compareFlag, if_neg h.ne', if_pos h]
    cases f <;> simp [flagCause, h, h.ne', h.not_gt]

/-- Div's three cases, each with the row of its flag (41_arithmetic.md R94). -/
theorem exec_div_byTable {a : Operand} {r : Reg} {s t : State} (h : exec (.div a r) s = .next t) :
    FlagsByTable (.div a r) s t := by
  cases h
  by_cases h0 : s.readReg r = 0
  · rw [if_pos h0]
    exact (flagSetIff_setFlag s r 0 trivial).byTable fun f => by cases f <;> simp [flagCause, h0]
  · rw [if_neg h0]
    by_cases ho : s.resolve a = -32768 ∧ s.readReg r = -1
    · rw [if_pos ho]
      exact (flagSetIff_setFlag s r 0 trivial).byTable fun f => by cases f <;> simp [flagCause, ho]
    · rw [if_neg ho]
      exact (sameFlags_writeReg s r _).byTable fun f => by
        cases f with
        | overflow => exact ho
        | zero => exact h0
        | _ => exact id

/-- Push sets OVERFLOW on its full path and touches no flag on the others (44_stack.md R120). -/
theorem exec_push_flags {a : Operand} {s t : State} (h : exec (.push a) s = .next t) :
    FlagSetIff .overflow (s.sp - s.sbase = s.ssize) s t := by
  rcases s.pushValue_cases (s.resolve a) with ⟨hf, hp⟩ | ⟨hf, _, hp⟩ | ⟨hf, _, hp⟩
  · rw [exec_push_of_ok hp] at h; cases h
    exact s.stackFault_flags.congr (iff_of_true trivial hf)
  · rw [exec_push_of_ok hp] at h; cases h
    exact SameFlags.flagSetIff rfl hf _
  · rw [exec_push_of_error hp] at h; cases h
    exact SameFlags.flagSetIff rfl hf _

/-- Pop sets OVERFLOW on its empty path and touches no flag on the others (44_stack.md R121). -/
theorem exec_pop_flags {r : Reg} {s t : State} (h : exec (.pop r) s = .next t) :
    FlagSetIff .overflow (s.sp = s.sbase) s t := by
  rcases s.popInto_cases r with ⟨he, hp⟩ | ⟨he, _, hp⟩ | ⟨he, _, hp⟩
  · rw [exec_pop_of_ok hp] at h; cases h
    exact s.stackFault_flags.congr (iff_of_true trivial he)
  · rw [exec_pop_of_ok hp] at h; cases h
    exact SameFlags.flagSetIff (State.writeReg_flags _ _ _) he _
  · rw [exec_pop_of_error hp] at h; cases h
    exact SameFlags.flagSetIff rfl he _

/-- R19's table, instruction by instruction. -/
theorem flagsByTable_of_exec {i : Instr} {s t : State} (h : exec i s = .next t) : FlagsByTable i s t := by
  cases i with
  | load a b => exact (exec_load_sameFlags h).byTable fun f => by cases f <;> exact id
  | sum a r =>
    cases h
    obtain ⟨_, _, hf, _⟩ := s.writeRanged_spec r (s.readReg r + s.resolve a)
    exact hf.byTable fun f => by cases f <;> simp [flagCause]
  | sub a r =>
    cases h
    obtain ⟨_, _, hf, _⟩ := s.writeRanged_spec r (s.resolve a - s.readReg r)
    exact hf.byTable fun f => by cases f <;> simp [flagCause]
  | mul a r =>
    cases h
    obtain ⟨_, _, hf, _⟩ := s.writeRanged_spec r (s.resolve a * s.readReg r)
    exact hf.byTable fun f => by cases f <;> simp [flagCause]
  | div a r => exact exec_div_byTable h
  | and a r | or a r | xor a r | not r =>
    cases h
    exact (sameFlags_writeReg s r _).byTable fun f => by cases f <;> exact id
  | shr a r | shl a r =>
    cases h
    obtain ⟨_, _, hf, _⟩ := s.writeGuarded_spec r (u16 (s.resolve a)).toNat _
    exact hf.byTable fun f => by cases f <;> simp [flagCause]
  | cmp a r =>
    cases h
    exact (s.flagSetIff_true_setFlag _).byTable fun f => by rw [flagCause_cmp, and_true]
  | jmp a | jeq a | jne a | jgt a | jlt a =>
    cases h
    exact (sameFlags_jumpIf s _ a).byTable fun f => by cases f <;> exact id
  | push a => exact (exec_push_flags h).byTable fun f => by cases f <;> simp [flagCause]
  | pop r => exact (exec_pop_flags h).byTable fun f => by cases f <;> simp [flagCause]

/-- Settles O30: the rows of the table, and the bits no effect of an instruction writes. -/
theorem flagsSetByTable : Obligations.FlagsSetByTable :=
  fun _ _ _ f h => ⟨flagsByTable_of_exec h f, (effect_of_exec h).reserved⟩

/-! ## The stack invariant -/

theorem Effect.keeps_stackGeometry {i : Instr} {s t : State} (h : Effect s i t) (hg : s.StackGeometry) :
    t.StackGeometry := by
  obtain ⟨hb, hz⟩ := h.geometry
  exact ⟨by rw [hb, hz, h.mem_size]; exact hg.fits, by rw [hz]; exact hg.even, by rw [h.mem_size]; exact hg.small⟩

theorem State.StackInv.of_same {s t : State} (h : s.StackInv) (hp : t.sp = s.sp) (hb : t.sbase = s.sbase)
    (hz : t.ssize = s.ssize) : t.StackInv :=
  ⟨by rw [hp, hb]; exact h.above, by rw [hp, hb, hz]; exact h.below, by rw [hp, hb]; exact h.even⟩

/-- Below the end of the region there is room for a word: the distances from the base are even (10_state.md R24). -/
theorem State.StackInv.room {s : State} (h : s.StackInv) (hg : s.StackGeometry) (hf : s.sp - s.sbase ≠ s.ssize) :
    s.sp.toNat + 2 ≤ s.sbase.toNat + s.ssize.toNat := by
  have hdist : (s.sp - s.sbase).toNat = s.sp.toNat - s.sbase.toNat := BitVec.toNat_sub_of_le h.above
  have hne : (s.sp - s.sbase).toNat ≠ s.ssize.toNat := fun e => hf (BitVec.eq_of_toNat_eq e)
  have := h.above
  have := h.below
  have := h.even
  have := hg.even
  omega

/-- Above the base there is a word to pop. -/
theorem State.StackInv.filled {s : State} (h : s.StackInv) (he : s.sp ≠ s.sbase) : s.sbase.toNat + 2 ≤ s.sp.toNat := by
  have hne : s.sp.toNat ≠ s.sbase.toNat := fun e => he (BitVec.eq_of_toNat_eq e)
  have := h.above
  have := h.even
  omega

/-- A stack fault keeps the stack invariant where the base is 0 (90_conflicts.md C3). -/
theorem State.StackInv.stackFault {s : State} (hb : s.sbase = 0) : s.stackFault.StackInv :=
  ⟨by simp [hb], by simp, by simp [hb]⟩

/-- R24: a push moves `sp` up into the room there is, a pop down to a word that is there. -/
theorem Effect.keeps_stackInv {i : Instr} {s t : State} (h : Effect s i t) (hg : s.StackGeometry)
    (hend : s.sbase.toNat + s.ssize.toNat < 65536) (hs : s.StackInv) (hc : s.sbase = 0 ∨ ¬ stackFaults i s) :
    t.StackInv := by
  have habove := hs.above
  have hbelow := hs.below
  have heven := hs.even
  cases h with
  | push a m hf hb hms hw =>
    have hroom := hs.room hg hf
    have hsp : (s.sp + 2).toNat = s.sp.toNat + 2 := by
      rw [BitVec.toNat_add, show (2 : Word).toNat = 2 from rfl]
      omega
    refine ⟨?_, ?_, ?_⟩ <;>
      simp only [State.setSp_sp, State.setSp_sbase, State.setSp_ssize, State.setMem_sbase, State.setMem_ssize, hsp] <;>
      omega
  | pop r v he hb =>
    have hfilled := hs.filled he
    have hsp : (s.sp - 2).toNat = s.sp.toNat - 2 := BitVec.toNat_sub_of_le (by
      show 2 ≤ s.sp.toNat
      omega)
    refine ⟨?_, ?_, ?_⟩ <;>
      simp only [State.writeReg_sp, State.writeReg_sbase, State.writeReg_ssize, State.setSp_sp, State.setSp_sbase,
        State.setSp_ssize, hsp] <;>
      omega
  | full a hf => exact .stackFault (hc.resolve_right fun hn => hn hf)
  | empty r he => exact .stackFault (hc.resolve_right fun hn => hn he)
  | _ => exact hs.of_same (by simp) (by simp) (by simp)

/-- A Push changes no byte but the two at `sp`, and those only where the stack is not full (44_stack.md R120). -/
theorem exec_push_byteAt_other {a : Operand} {s t : State} (h : exec (.push a) s = .next t) {x : Nat}
    (hx : s.sp - s.sbase ≠ s.ssize → x < s.sp.toNat ∨ s.sp.toNat + 2 ≤ x) : t.mem.byteAt x = s.mem.byteAt x := by
  rcases s.pushValue_cases (s.resolve a) with ⟨hf, hp⟩ | ⟨hf, _, hp⟩ | ⟨hf, _, hp⟩
  · rw [exec_push_of_ok hp] at h; cases h; rfl
  · rw [exec_push_of_ok hp] at h; cases h
    exact Memory.byteAt_setWord_other _ _ (hx hf)
  · rw [exec_push_of_error hp] at h; cases h; rfl

/-- Settles O59: a Push writes inside the stack region, which holds no byte of the program. -/
theorem stackInvariantKept : Obligations.StackInvariantKept := by
  intro i s t hg hend hs hx
  have he := effect_of_exec hx
  refine ⟨fun hc => ⟨he.keeps_stackInv hg hend hs hc, he.keeps_stackGeometry hg⟩, ?_⟩
  rintro program a hapart rfl
  obtain ⟨hb, hz⟩ := he.geometry
  refine ⟨by simpa only [State.StackApart, hb, hz] using hapart, fun x hmem => exec_push_byteAt_other hx fun hf => ?_⟩
  have hout := hapart x hmem
  have habove := hs.above
  have hroom := hs.room hg hf
  omega

/-! ## The host's moves -/

theorem storedAt_setByte {s : State} (hw : s.mem.wf = true) (a : Nat) (b : Byte) :
    StoredAt a [b] s (s.setMem (s.mem.setByte a b)) :=
  ⟨rfl, Memory.byteAt_setByte hw a b, fun q => s.setMem_readReg _ q, rfl⟩

theorem storedAt_setWord {s : State} (hw : s.mem.wf = true) {a : Nat} (ha : a + 2 ≤ s.mem.size) (v : Int) :
    StoredAt a (wordBytes v) s (s.setMem (s.mem.setWord a (u16 v))) :=
  ⟨rfl, Memory.byteAt_setWord hw (by omega) (u16 v), fun q => s.setMem_readReg _ q, rfl⟩

theorem StoredAt.setSp {a : Nat} {bytes : List Byte} {s t : State} (h : StoredAt a bytes s t) (v : Word) :
    StoredAt a bytes s (t.setSp v) := by
  obtain ⟨hsize, hbytes, hregs, hflags⟩ := h
  exact ⟨hsize, hbytes, fun q => (t.setSp_readReg v q).trans (hregs q), hflags⟩

theorem stackFaulted_stackFault (s : State) : StackFaulted s s.stackFault :=
  ⟨rfl, s.stackFault_flags, fun q => s.stackFault_readReg q, rfl, fun _ => rfl⟩

/-- What a popped word leaves in a register is the register write of its signed value (44_stack.md R121). -/
theorem poppedValue_eq (r : Reg) (m : Memory) (a : Nat) :
    poppedValue r m a = storedValue (regWidth r) (s16 (bytesToWord (m.byteAt a) (m.byteAt (a + 1)))) := by
  simp only [poppedValue]
  cases regWidth r with
  | w16 => simp only [storedValue, u16_s16]; rfl
  | w8 => simp only [storedValue, s16_mod_256, loByte_bytesToWord]

/-- The effect of a host Push on each path that is answered. -/
theorem hostEffect_push {s t : State} (hw : s.mem.wf = true) {v : Int} (h : s.pushValue v = .ok t) :
    HostEffect (.push v) s t := by
  rcases s.pushValue_cases v with ⟨hf, hp⟩ | ⟨hf, hb, hp⟩ | ⟨hf, hb, hp⟩ <;> rw [hp] at h <;> cases h
  · exact ⟨rfl, ⟨rfl, rfl, rfl⟩, by rw [if_pos hf]; exact stackFaulted_stackFault s⟩
  · exact ⟨rfl, ⟨rfl, rfl, rfl⟩, by rw [if_neg hf]; exact ⟨rfl, (storedAt_setWord hw hb v).setSp _⟩⟩

/-- The effect of a host Pop on each path that is answered. -/
theorem hostEffect_pop {s t : State} {r : Reg} (h : s.popInto r = .ok t) : HostEffect (.pop r) s t := by
  rcases s.popInto_cases r with ⟨he, hp⟩ | ⟨he, hb, hp⟩ | ⟨he, hb, hp⟩ <;> rw [hp] at h <;> cases h
  · exact ⟨rfl, ⟨rfl, rfl, rfl⟩, by rw [if_pos he]; exact stackFaulted_stackFault s⟩
  · refine ⟨by simp, ⟨by simp, by simp, by simp⟩, ?_⟩
    rw [if_neg he, poppedValue_eq]
    exact ⟨by simp, State.readReg_writeReg_same _ r _,
      fun q hq => (State.readReg_writeReg_other _ _ hq).trans (s.setSp_readReg _ q), State.writeReg_flags _ _ _,
      by simp, by simp⟩

/-- Everything a host move answers: its access, if it makes one, is in bounds and the move has its effect; or the access is
not, and the move raises OutOfBounds (10_state.md R28, 20_memory.md R35). -/
theorem hostApply_spec (h : HostMove) {s : State} (hw : s.mem.wf = true) :
    (∃ t, hostApply h s = .ok t ∧ HostEffect h s t ∧ ∀ a n, hostAccess h s = some (a, n) → a + n ≤ s.mem.size) ∨
    ∃ a n, hostAccess h s = some (a, n) ∧ ¬ a + n ≤ s.mem.size ∧ hostApply h s = .error (.outOfBounds a n) := by
  cases h with
  | writeReg r v =>
    exact .inl ⟨_, rfl, ⟨s.readReg_writeReg_same r v, onlyReg_writeReg s r v, sameFlags_writeReg s r v⟩, nofun⟩
  | writeByte a b =>
    by_cases hb : a + 1 ≤ s.mem.size
    · refine .inl ⟨s.setMem (s.mem.setByte a b), by simp [hostApply, Memory.write, hb, Except.map],
        ⟨storedAt_setByte hw a b, rfl, rfl, rfl, rfl, rfl⟩, ?_⟩
      rintro _ _ ⟨⟩
      exact hb
    · exact .inr ⟨a, 1, rfl, hb, by simp [hostApply, Memory.write, hb, Except.map]⟩
  | writeWord a v =>
    by_cases hb : a + 2 ≤ s.mem.size
    · refine .inl ⟨s.setMem (s.mem.setWord a (u16 v)), by simp [hostApply, Memory.write16, hb, Except.map],
        ⟨storedAt_setWord hw hb v, rfl, rfl, rfl, rfl, rfl⟩, ?_⟩
      rintro _ _ ⟨⟩
      exact hb
    · exact .inr ⟨a, 2, rfl, hb, by simp [hostApply, Memory.write16, hb, Except.map]⟩
  | push v =>
    simp only [hostAccess, hostApply]
    rcases s.pushValue_cases v with ⟨hf, hp⟩ | ⟨hf, hb, hp⟩ | ⟨hf, hb, hp⟩
    · exact .inl ⟨_, hp, hostEffect_push hw hp, by simp [hf]⟩
    · exact .inl ⟨_, hp, hostEffect_push hw hp, by rw [if_neg hf]; rintro _ _ ⟨⟩; exact hb⟩
    · exact .inr ⟨_, 2, if_neg hf, hb, hp⟩
  | pop r =>
    simp only [hostAccess, hostApply]
    rcases s.popInto_cases r with ⟨he, hp⟩ | ⟨he, hb, hp⟩ | ⟨he, hb, hp⟩
    · exact .inl ⟨_, hp, hostEffect_pop hp, by simp [he]⟩
    · exact .inl ⟨_, hp, hostEffect_pop hp, by rw [if_neg he]; rintro _ _ ⟨⟩; exact hb⟩
    · exact .inr ⟨_, 2, if_neg he, hb, hp⟩

/-- What every host move that is answered leaves as it is, and when it sets OVERFLOW (10_state.md R28). -/
theorem hostApply_frame {h : HostMove} {s t : State} (hs : s.Inv) (ht : hostApply h s = .ok t) :
    t.Inv ∧ t.pc = s.pc ∧ SameFixed s t ∧ t.mem.size = s.mem.size ∧ FlagSetIff .overflow (hostStackFaults h s) s t := by
  rcases hostApply_cases ht with ⟨hn, hc⟩ | ⟨hf, rfl⟩
  · have same : SameFlags s t ∧ t.pc = s.pc ∧ SameFixed s t ∧ t.mem.size = s.mem.size ∧
        (s.mem.wf = true → t.mem.wf = true) := by
      obtain ⟨r, v, rfl⟩ | ⟨m, rfl, hm, hw⟩ | ⟨m, rfl, hm, hw⟩ | ⟨r, v, rfl⟩ := hc
      · simp [SameFlags, SameFixed]
      · exact ⟨rfl, rfl, ⟨rfl, rfl, rfl⟩, hm, hw⟩
      · exact ⟨rfl, rfl, ⟨rfl, rfl, rfl⟩, hm, hw⟩
      · simp [SameFlags, SameFixed]
    obtain ⟨hflags, hpc, hfixed, hsize, hwf⟩ := same
    exact ⟨hs.of_same hsize hwf hflags.reserved, hpc, hfixed, hsize, hflags.flagSetIff hn _⟩
  · exact ⟨hs.of_same rfl id s.stackFault_reserved, rfl, ⟨rfl, rfl, rfl⟩, rfl,
      s.stackFault_flags.congr (iff_of_true trivial hf)⟩

/-- Settles O60: what a move answers, and what it leaves. -/
theorem hostMovesBounded : Obligations.HostMovesBounded := by
  intro h s hs
  rcases hostApply_spec h hs.memory with ⟨u, hu, heff, hin⟩ | ⟨a, n, hacc, hout, herr⟩
  · refine ⟨fun _ => ⟨u, hu⟩, fun a n hacc hout => absurd (hin a n hacc) hout, fun t ht => ?_⟩
    obtain rfl : u = t := Except.ok.inj (hu.symm.trans ht)
    exact ⟨heff, hostApply_frame hs ht⟩
  · refine ⟨fun hin => absurd (hin a n hacc) hout, fun a' n' hacc' _ => ?_, fun t ht => ?_⟩
    · rw [hacc] at hacc'
      cases hacc'
      exact herr
    · rw [herr] at ht
      cases ht

end Sys2Proof.Machine
end

section
/-! PROOFS. The statements of the family of spec/20_memory.md: the four accessors, their bounds, the canonical form of
memory, and that a store is seen by the next fetch. -/

namespace Sys2Proof.Machine

/-! ## The accessors in bounds (20_memory.md R31 to R34) -/

theorem Memory.read_of_inBounds {m : Memory} {a : Nat} (h : m.inBounds a 1) : m.read a = .ok (m.byteAt a) := if_pos h

theorem Memory.write_of_inBounds {m : Memory} {a : Nat} (h : m.inBounds a 1) (b : Byte) :
    m.write a b = .ok (m.setByte a b) := if_pos h

theorem Memory.read16_of_inBounds {m : Memory} {a : Nat} (h : m.inBounds a 2) :
    m.read16 a = .ok (bytesToWord (m.byteAt a) (m.byteAt (a + 1))) := if_pos h

theorem Memory.write16_of_inBounds {m : Memory} {a : Nat} (h : m.inBounds a 2) (v : Int) :
    m.write16 a v = .ok (m.setWord a (u16 v)) := if_pos h

/-- A read sees the size of memory and the byte at its address, and nothing else (R31). -/
theorem Memory.read_congr {m m' : Memory} {x : Nat} (hs : m'.size = m.size) (hb : m'.byteAt x = m.byteAt x) :
    m'.read x = m.read x := by
  simp only [Memory.read, Memory.inBounds, hs, hb]

/-- Replacing the memory leaves every register, flag and control field as it is (R32). -/
theorem State.setMem_frame (s : State) (m : Memory) :
    SameRegs s (s.setMem m) ∧ SameFlags s (s.setMem m) ∧ SameControl s (s.setMem m) :=
  ⟨s.setMem_readReg m, rfl, rfl, rfl, rfl, rfl, rfl⟩

/-- Settles O18: read after write at the same and at another address, and the frame of a replaced memory. -/
theorem byteAccessors : Obligations.ByteAccessors := by
  intro s a hw ha
  refine ⟨Memory.read_of_inBounds ha, fun b => ⟨s.mem.setByte a b, Memory.write_of_inBounds ha b, rfl, ?_, fun x hx => ?_,
    s.setMem_frame _⟩⟩
  · rw [Memory.read_of_inBounds (m := s.mem.setByte a b) ha, Memory.byteAt_setByte_same hw]
  · have hb := Memory.byteAt_setByte_other s.mem b hx
    exact ⟨hb, Memory.read_congr rfl hb⟩

/-! ## Big-endian words (R33, R34, R45) -/

/-- A word read where a pattern was stored is that pattern (R45). -/
theorem Memory.read16_setWord {m : Memory} (hw : m.wf = true) {a : Nat} (ha : a + 2 ≤ m.size) (p : Word) :
    (m.setWord a p).read16 a = .ok p := by
  rw [Memory.read16_of_inBounds (m := m.setWord a p) ha, Memory.byteAt_setWord_first hw,
    Memory.byteAt_setWord_second hw p (by omega), bytesToWord_hiByte_loByte]

/-- Two bytes stored one after the other are the word of the two, stored. -/
theorem Memory.setByte_setByte_succ (m : Memory) (a : Nat) (h l : Byte) :
    (m.setByte a h).setByte (a + 1) l = m.setWord a (bytesToWord h l) := by
  rw [Memory.setWord, hiByte_bytesToWord, loByte_bytesToWord]

theorem bytesToWord_toNat (h l : Byte) : (bytesToWord h l).toNat = h.toNat * 256 + l.toNat := by
  have hhi := hiByte_toNat (bytesToWord h l)
  have hlo := loByte_toNat (bytesToWord h l)
  rw [hiByte_bytesToWord] at hhi
  rw [loByte_bytesToWord] at hlo
  omega

/-- Settles O19: the word is stored as its two halves, and read as them. -/
theorem wordAccessors : Obligations.WordAccessors := by
  intro m a hw ha
  refine ⟨Memory.read16_of_inBounds ha, fun v => ⟨m.setWord a (u16 v), Memory.write16_of_inBounds ha v, rfl,
    Memory.read16_setWord hw ha _, ?_, ?_, fun x hx => Memory.byteAt_setWord_other m _ hx⟩, fun h l => ?_⟩
  · rw [Memory.load_w8 (m := m.setWord a (u16 v)) (by rw [Memory.setWord_size]; omega), Memory.byteAt_setWord_first hw,
      hiByte_toNat]
  · rw [Memory.load_w8 (m := m.setWord a (u16 v)) ha, Memory.byteAt_setWord_second hw _ (by omega), loByte_toNat]
  · refine ⟨m.setByte a h, m.setWord a (bytesToWord h l), Memory.write_of_inBounds (by omega) h, ?_, ?_⟩
    · rw [Memory.write_of_inBounds (m := m.setByte a h) ha, Memory.setByte_setByte_succ]
    · rw [Memory.load, Memory.read16_setWord hw ha, Except.map, bytesToWord_toNat]

/-! ## Bounds (R35) -/

/-- A load in bounds is answered, at either width (R37). -/
theorem Memory.load_of_inBounds {m : Memory} {a : Nat} {w : Width} (h : a + accessBytes w ≤ m.size) :
    ∃ v, m.load a w = .ok v := by
  cases w with
  | w8 => exact ⟨_, Memory.load_w8 h⟩
  | w16 => exact ⟨_, Memory.load_w16 h⟩

/-- A store in bounds is answered, at either width (R37). -/
theorem Memory.store_of_inBounds {m : Memory} {a : Nat} {w : Width} (v : Int) (h : a + accessBytes w ≤ m.size) :
    ∃ m', m.store a w v = .ok m' := by
  cases w with
  | w8 => exact ⟨_, Memory.store_w8 v h⟩
  | w16 => exact ⟨_, Memory.store_w16 v h⟩

/-- An access that is answered in bounds and raises a fault out of bounds is answered exactly in bounds. -/
theorem answered_iff_of_error {α : Type} {p : Prop} {x : Except FatalFault α} {f : FatalFault}
    (hok : p → ∃ v, x = .ok v) (herr : ¬ p → x = .error f) : (∃ v, x = .ok v) ↔ p := by
  refine ⟨fun ⟨v, hv⟩ => ?_, hok⟩
  by_contra hp
  rw [herr hp] at hv
  cases hv

/-- Settles O20: both accesses are answered in bounds and raise OutOfBounds otherwise. -/
theorem boundsCheck : Obligations.BoundsCheck :=
  fun _ _ _ => ⟨answered_iff_of_error Memory.load_of_inBounds Memory.load_error, Memory.load_error,
    fun v => ⟨answered_iff_of_error (Memory.store_of_inBounds v) (Memory.store_error v), Memory.store_error v⟩⟩

/-! ## The canonical form -/

/-- A store that is answered keeps the canonical form. -/
theorem Memory.wf_of_store {m m' : Memory} {a : Nat} {w : Width} {v : Int} (hw : m.wf = true)
    (h : m.store a w v = .ok m') : m'.wf = true := by
  rcases Memory.store_cases m a w v with ⟨_, u, hu, _, huw, _⟩ | ⟨_, herr⟩
  · obtain rfl : u = m' := Except.ok.inj (hu.symm.trans h)
    exact huw hw
  · rw [herr] at h
    cases h

/-- An address above every cell reads as the fill. -/
theorem cellAt_of_ge : ∀ (cells : List Host.Cell) {lo hi a : Nat}, cellsOk lo hi cells = true → hi ≤ a →
    cellAt cells a = Settings.memoryFill := by
  intro cells
  induction cells with
  | nil => intros; rfl
  | cons c rest ih =>
    intro lo hi a h hle
    obtain ⟨k, v⟩ := c
    simp only [cellsOk, Bool.and_eq_true, decide_eq_true_eq] at h
    obtain ⟨⟨⟨_, hk⟩, _⟩, hrest⟩ := h
    have hne : k ≠ a := by omega
    simp only [cellAt, hne, if_false]
    exact ih hrest hle

theorem Memory.byteAt_of_size_le {m : Memory} (hw : m.wf = true) {a : Nat} (ha : m.size ≤ a) :
    m.byteAt a = Settings.memoryFill := cellAt_of_ge m.cells hw ha

/-- Canonical memories of one size with the same bytes in it are equal. -/
theorem Memory.eq_of_byteAt {m m' : Memory} (hw : m.wf = true) (hw' : m'.wf = true) (hs : m.size = m'.size)
    (h : ∀ a, a < m.size → m.byteAt a = m'.byteAt a) : m = m' := by
  have hall : ∀ a, m.byteAt a = m'.byteAt a := fun a => by
    rcases Nat.lt_or_ge a m.size with ha | ha
    · exact h a ha
    · rw [Memory.byteAt_of_size_le hw ha, Memory.byteAt_of_size_le hw' (hs ▸ ha)]
  obtain ⟨n, c⟩ := m
  obtain ⟨n', c'⟩ := m'
  obtain rfl : n = n' := hs
  obtain rfl : c = c' := cells_ext c c' hw hw' hall
  rfl

/-- Settles O21: a store is one or two bytes put in canonical order, and that order leaves one list for the same bytes. -/
theorem memoryCanonical : Obligations.MemoryCanonical :=
  ⟨fun _ _ _ _ _ hw h => Memory.wf_of_store hw h, fun _ _ hw hw' hs h => Memory.eq_of_byteAt hw hw' hs h⟩

/-! ## What stands at an address, decoded (30_encoding.md R62, R63) -/

/-- Decode depends on the size and the bytes of memory only. -/
theorem decodeAt_congr {m m' : Memory} (hs : m.size = m'.size) (hb : ∀ x, x < m.size → m.byteAt x = m'.byteAt x)
    (off : Nat) : decodeAt m off = decodeAt m' off := by
  have hwin : m.window off maxStreamBytes = m'.window off maxStreamBytes :=
    Memory.window_congr _ _ (fun _ _ _ => by rw [hs]) (fun x _ _ hx => hb x hx)
  rw [decodeAt, decodeAt, hwin]

/-- The numbers that name no instruction (30_encoding.md R54). -/
theorem Op.ofNumber_eq_none_iff (n : Nat) : Op.ofNumber n = none ↔ n = 0 ∨ 20 ≤ n := by
  simp only [Op.ofNumber, List.find?_eq_none, Op.all, Op.number, List.forall_mem_cons, List.not_mem_nil, beq_iff_eq,
    false_implies, implies_true, and_true]
  omega

/-- The opcode bytes that name no instruction (R63). -/
theorem Op.ofByte_eq_none_iff (ob : Byte) : Op.ofByte ob = none ↔ ob.toNat ≤ 0x07 ∨ 0xA0 ≤ ob.toNat := by
  rw [Op.ofByte, Op.ofNumber_eq_none_iff]
  omega

/-- A byte in memory that names no instruction fails the decode there (R63). -/
theorem decodeAt_of_no_opcode {m : Memory} {off : Nat} (ho : off < m.size) (hb : Op.ofByte (m.byteAt off) = none) :
    decodeAt m off = .error (.unknownOpcode (m.byteAt off) off) := by
  have hwin : m.window off maxStreamBytes = m.byteAt off :: m.window (off + 1) (maxStreamBytes - 1) := if_pos ho
  rw [decodeAt, hwin]
  rcases decodeStream_cases off (m.byteAt off) (m.window (off + 1) (maxStreamBytes - 1)) with ⟨_, h⟩ | ⟨op, hop, _⟩
  · exact h
  · rw [hb] at hop
    cases hop

/-! ## Every form that stores (40_load.md R83, R84; 44_stack.md R120) -/

/-- The forms that store: Load of a 16-bit name, of an alias, and from memory, into memory; and Push. -/
theorem storeOf_cases {i : Instr} {s : State} {a : Nat} {bytes : List Byte} (h : storeOf i s = some (a, bytes)) :
    (∃ rs k, i = .load (.register rs) (.constant k) ∧ regWidth rs = .w16 ∧ a = k.toNat ∧
      bytes = wordBytes (s.readReg rs)) ∨
    (∃ rs k, i = .load (.register rs) (.constant k) ∧ regWidth rs = .w8 ∧ a = k.toNat ∧ bytes = [u8 (s.readReg rs)]) ∨
    (∃ ks kd, i = .load (.constant ks) (.constant kd) ∧ a = kd.toNat ∧
      bytes = [s.mem.byteAt ks.toNat, s.mem.byteAt (ks.toNat + 1)]) ∨
    (∃ c, i = .push c ∧ s.sp - s.sbase ≠ s.ssize ∧ a = s.sp.toNat ∧ bytes = wordBytes (s.resolve c)) := by
  cases i with
  | load c d =>
    cases d with
    | register rd => cases c <;> cases h
    | constant k =>
      cases c with
      | register rs =>
        cases hw : regWidth rs with
        | w16 =>
          simp only [storeOf, hw, Option.some.injEq, Prod.mk.injEq] at h
          exact .inl ⟨rs, k, rfl, hw, h.1.symm, h.2.symm⟩
        | w8 =>
          simp only [storeOf, hw, Option.some.injEq, Prod.mk.injEq] at h
          exact .inr (.inl ⟨rs, k, rfl, hw, h.1.symm, h.2.symm⟩)
      | constant ks =>
        cases h
        exact .inr (.inr (.inl ⟨ks, k, rfl, rfl, rfl⟩))
  | push c =>
    by_cases hf : s.sp - s.sbase = s.ssize
    · simp only [storeOf, if_pos hf, reduceCtorEq] at h
    · simp only [storeOf, if_neg hf, Option.some.injEq, Prod.mk.injEq] at h
      exact .inr (.inr (.inr ⟨c, rfl, hf, h.1.symm, h.2.symm⟩))
  | _ => cases h

/-- Two bytes stored as the word they make (R84). -/
theorem storedAt_bytesToWord {s : State} (hw : s.mem.wf = true) {a : Nat} (ha : a + 2 ≤ s.mem.size) (h l : Byte) :
    StoredAt a [h, l] s (s.setMem (s.mem.setWord a (bytesToWord h l))) := by
  simpa only [wordBytes, u16_s16, hiByte_bytesToWord, loByte_bytesToWord] using
    storedAt_setWord hw ha (s16 (bytesToWord h l))

/-- Every form that stores, in bounds, stores its bytes and leaves `pc` and the halted state alone. -/
theorem exec_storedAt {s : State} {i : Instr} {a : Nat} {bytes : List Byte} (hw : s.mem.wf = true)
    (h : storeOf i s = some (a, bytes)) (hb : a + bytes.length ≤ s.mem.size)
    (hsrc : ∀ ks kd, i = .load (.constant ks) (.constant kd) → ks.toNat + 2 ≤ s.mem.size) :
    ∃ t, exec i s = .next t ∧ StoredAt a bytes s t ∧ t.pc = s.pc ∧ t.halt = s.halt := by
  obtain ⟨rs, k, rfl, hwid, rfl, rfl⟩ | ⟨rs, k, rfl, hwid, rfl, rfl⟩ | ⟨ks, kd, rfl, rfl, rfl⟩ | ⟨c, rfl, hf, rfl, rfl⟩ :=
    storeOf_cases h
  · exact ⟨_, exec_load_of_ok (s.loadRegMem_w16 hwid hb), storedAt_setWord hw hb _, rfl, rfl⟩
  · exact ⟨_, exec_load_of_ok (s.loadRegMem_w8 hwid hb), storedAt_setByte hw _ _, rfl, rfl⟩
  · exact ⟨_, exec_load_of_ok (s.loadMemMem_ok (hsrc ks kd rfl) hb), storedAt_bytesToWord hw hb _ _, rfl, rfl⟩
  · exact ⟨_, exec_push_of_ok (s.pushValue_ok _ hf hb), (storedAt_setWord hw hb _).setSp _, rfl, rfl⟩

/-! ## The next fetch (20_memory.md R42) -/

/-- A stored byte, read over the old memory. -/
theorem byteOver_of_getElem? (m : Memory) {a x : Nat} {bytes : List Byte} {b : Byte} (hx : a ≤ x)
    (hb : bytes[x - a]? = some b) : x < a + bytes.length ∧ byteOver m a bytes x = b := by
  obtain ⟨hlt, _⟩ := List.getElem?_eq_some_iff.mp hb
  have hin : x < a + bytes.length := by omega
  refine ⟨hin, ?_⟩
  rw [byteOver, if_pos ⟨hx, hin⟩, List.getD_eq_getElem?_getD, hb, Option.getD_some]

/-- A machine fetches from any memory that has the size and the bytes of its own. -/
theorem step_of_sameBytes {t : State} (hh : t.halt = none) {m : Memory} (hs : m.size = t.mem.size)
    (hb : ∀ x, x < m.size → m.byteAt x = t.mem.byteAt x) :
    (∀ j n, decodeAt m t.pc.toNat = .ok (j, n) → step t = exec j (t.advance n)) ∧
      ∀ e, decodeAt m t.pc.toNat = .error e → step t = .next (t.enterHalt (.decode e)) := by
  rw [decodeAt_congr hs hb]
  exact ⟨fun _ _ => step_of_ok hh, fun _ => step_of_error hh⟩

/-- Settles O34: the store leaves its bytes over the old memory, and the step after it fetches from what it left. -/
theorem storeSeenByNextFetch : Obligations.StoreSeenByNextFetch := by
  intro s i a bytes hw hh hstore hin hsrc
  obtain ⟨t, ht, ⟨hsize, hbytes, _, _⟩, hpc, hhalt⟩ := exec_storedAt hw hstore hin hsrc
  have hh' : t.halt = none := hhalt.trans hh
  refine ⟨t, ht, hpc, hsize, hbytes, fun m hm hmb => ?_, fun b hle hget hop => ?_⟩
  · rw [← hpc]
    exact step_of_sameBytes hh' (hm.trans hsize.symm) fun x hx => (hmb x (hm ▸ hx)).trans (hbytes x).symm
  · obtain ⟨hlt, hover⟩ := byteOver_of_getElem? s.mem hle hget
    have hb : t.mem.byteAt t.pc.toNat = b := by rw [hpc, hbytes, hover]
    have hlt' : t.pc.toNat < t.mem.size := by rw [hpc, hsize]; omega
    have hd := decodeAt_of_no_opcode hlt' (by rw [hb]; exact (Op.ofByte_eq_none_iff b).mpr hop)
    rw [step_of_error hh' hd, hb, hpc]

end Sys2Proof.Machine
end

section
/-! PROOFS. The statements of the family of spec/30_encoding.md: the tables, the encoder and its refusals, the decoder and
its errors, the two directions between them, and the written form. -/

namespace Sys2Proof.Machine

/-! ## The encoder (30_encoding.md R60, R61) -/

/-- The kinds of an instruction's operands are a form of its name exactly when it is well-formed (R61, R66). -/
theorem kinds_contains_eq_wellFormed (i : Instr) : i.op.format.kinds.contains (i.fa, i.fb) = i.wellFormed := by
  cases i with
  | load a b => cases a <;> cases b <;> rfl
  | not r | pop r => rfl
  | sum a r | sub a r | mul a r | div a r | and a r | or a r | xor a r | shr a r | shl a r | cmp a r => cases a <;> rfl
  | jmp a | jeq a | jne a | jgt a | jlt a | push a => cases a <;> rfl

theorem encodeStream_of_wellFormed {i : Instr} (h : i.wellFormed = true) :
    encodeStream i = .ok (opcodeByte i.op i.fa i.fb :: i.payload) :=
  if_pos ((kinds_contains_eq_wellFormed i).trans h)

theorem encodeStream_of_illFormed {i : Instr} (h : i.wellFormed = false) : encodeStream i = .error ⟨i⟩ :=
  if_neg (by rw [kinds_contains_eq_wellFormed, h]; exact Bool.false_ne_true)

theorem encode_of_illFormed {i : Instr} (h : i.wellFormed = false) : encode i = .error ⟨i⟩ := by
  rw [encode, encodeStream_of_illFormed h]

/-- The length of every stream form: 2 to 5 bytes, R70's length for its opcode byte (R50, R70). -/
theorem streamLength (i : Instr) : Laws.StreamLength.Statement i := by
  cases i with
  | load a b => exact Laws.StreamLength.load a b
  | sum a r => exact Laws.StreamLength.sum a r
  | sub a r => exact Laws.StreamLength.sub a r
  | mul a r => exact Laws.StreamLength.mul a r
  | div a r => exact Laws.StreamLength.div a r
  | and a r => exact Laws.StreamLength.and a r
  | or a r => exact Laws.StreamLength.or a r
  | xor a r => exact Laws.StreamLength.xor a r
  | shr a r => exact Laws.StreamLength.shr a r
  | shl a r => exact Laws.StreamLength.shl a r
  | cmp a r => exact Laws.StreamLength.cmp a r
  | not r => exact Laws.StreamLength.not r
  | jmp a => exact Laws.StreamLength.jmp a
  | jeq a => exact Laws.StreamLength.jeq a
  | jne a => exact Laws.StreamLength.jne a
  | jgt a => exact Laws.StreamLength.jgt a
  | jlt a => exact Laws.StreamLength.jlt a
  | push a => exact Laws.StreamLength.push a
  | pop r => exact Laws.StreamLength.pop r

theorem encodeStream_length_le {i : Instr} {stream : List Byte} (h : encodeStream i = .ok stream) :
    stream.length ≤ maxStreamBytes := by
  obtain ⟨_, _, hmax, _⟩ := streamLength i stream h
  exact hmax

theorem Instr.payload_length_of_wellFormed {i : Instr} (h : i.wellFormed = true) :
    1 ≤ i.payload.length ∧ i.payload.length ≤ 4 := by
  obtain ⟨_, hlo, hhi, _⟩ := streamLength i _ (encodeStream_of_wellFormed h)
  simp only [List.length_cons, maxStreamBytes] at hlo hhi
  omega

/-- The slot a stream form stands in: its length in bits, the stream, zeros (R50, R51). -/
def slotOf (stream : List Byte) : List Byte :=
  BitVec.ofNat 8 (8 * stream.length) :: stream ++ List.replicate (maxStreamBytes - stream.length) 0

/-- Encode answers the slots of the stream forms (R60). -/
theorem encode_eq_ok_iff {i : Instr} {slot : List Byte} :
    encode i = .ok slot ↔ ∃ stream, encodeStream i = .ok stream ∧ slot = slotOf stream := by
  cases h : encodeStream i with
  | error e => simp [encode, h]
  | ok stream => simp [encode, h, slotOf, eq_comm]

/-- The encoder answers for exactly the well-formed instructions (R61). -/
theorem wellFormed_iff_encode_ok (i : Instr) : i.wellFormed = true ↔ ∃ slot, encode i = .ok slot := by
  constructor
  · exact fun h => ⟨_, encode_eq_ok_iff.mpr ⟨_, encodeStream_of_wellFormed h, rfl⟩⟩
  · rintro ⟨slot, hslot⟩
    by_contra h
    rw [encode_of_illFormed (Bool.not_eq_true _ ▸ h)] at hslot
    cases hslot

/-- The first byte of a slot counts the bytes of the stream, eight bits each (R51). -/
theorem slotOf_count {stream : List Byte} (h : stream.length ≤ maxStreamBytes) :
    ((slotOf stream).getD 0 0).toNat = 8 * stream.length := by
  simp only [maxStreamBytes] at h
  simp only [slotOf, List.cons_append, List.getD_cons_zero, BitVec.toNat_ofNat]
  omega

/-- The bytes of the stream follow the first byte of its slot (R51). -/
theorem slotOf_getD_succ {stream : List Byte} {k : Nat} (h : k < stream.length) :
    (slotOf stream).getD (k + 1) 0 = stream[k] := by
  rw [slotOf, List.cons_append, List.getD_cons_succ, List.getD_append _ _ _ _ h, List.getD_eq_getElem _ _ h]

/-! ## Bytes that stand in memory -/

/-- `bytes` stand in memory from address `a` on. -/
def Memory.Holds (m : Memory) (a : Nat) (bytes : List Byte) : Prop :=
  ∀ (k : Nat) (h : k < bytes.length), a + k < m.size ∧ m.byteAt (a + k) = bytes[k]

/-- The decoder's window begins with exactly the bytes, within its reach, that stand at its address. -/
theorem Memory.prefix_window_iff {m : Memory} {a n : Nat} {bytes : List Byte} (hn : bytes.length ≤ n) :
    bytes <+: m.window a n ↔ m.Holds a bytes := by
  rw [List.prefix_iff_getElem?]
  refine forall₂_congr fun k hk => ?_
  have hkn : k < n := by omega
  simp only [Memory.window_getElem?, hkn, true_and, Option.ite_none_right_eq_some, Option.some.injEq]

theorem Memory.window_succ {m : Memory} {a : Nat} (n : Nat) (h : a < m.size) :
    m.window a (n + 1) = m.byteAt a :: m.window (a + 1) n := if_pos h

/-! ## Decode against encode (R71) -/

/-- A stream form, whatever follows it, decodes to its instruction and its length (R71). -/
theorem decodeStream_of_encodeStream {i : Instr} {bytes : List Byte} (h : encodeStream i = .ok bytes) (off : Nat)
    (rest : List Byte) : decodeStream off (bytes ++ rest) = .ok (i, bytes.length) := by
  obtain ⟨rfl, hk⟩ := Laws.StreamLength.stream_eq h
  obtain ⟨hop, hfa, hfb, hform⟩ := opcodeByte_fields i.op i.fa i.fb
  have hlen : off + 1 + i.payload.length - off = i.payload.length + 1 := by omega
  simp only [decodeStream, List.cons_append, Cursor.fetch_cons, bind, Except.bind, hop, hform, hk, if_true, hfa, hfb,
    decodeOperands_payload, hlen, List.length_cons]

/-- What decodes from a stream of bytes is the instruction whose stream form begins it (R71). -/
theorem encodeStream_of_decodeStream {off n : Nat} {bytes : List Byte} {i : Instr}
    (h : decodeStream off bytes = .ok (i, n)) : ∃ stream, encodeStream i = .ok stream ∧ n = stream.length ∧
      stream <+: bytes := by
  cases bytes with
  | nil => cases h
  | cons ob rest =>
    obtain ⟨_, he⟩ | ⟨op, _, ⟨_, he⟩ | ⟨_, ⟨j, tail, hj, henc, _, rfl⟩ | ⟨e, he, _⟩⟩⟩ := decodeStream_cases off ob rest
    · cases he.symm.trans h
    · cases he.symm.trans h
    · cases hj.symm.trans h
      exact ⟨_, henc, Nat.add_comm _ _, tail, rfl⟩
    · cases he.symm.trans h

/-- Decode answers an instruction exactly where its stream form stands in memory, and counts the form's bytes (R71). -/
theorem decodeAt_eq_ok_iff {m : Memory} {off n : Nat} {i : Instr} :
    decodeAt m off = .ok (i, n) ↔ ∃ stream, encodeStream i = .ok stream ∧ n = stream.length ∧ m.Holds off stream := by
  constructor
  · intro h
    obtain ⟨stream, henc, hn, hpre⟩ := encodeStream_of_decodeStream h
    exact ⟨stream, henc, hn, (Memory.prefix_window_iff (encodeStream_length_le henc)).mp hpre⟩
  · rintro ⟨stream, henc, rfl, hold⟩
    obtain ⟨rest, hrest⟩ := (Memory.prefix_window_iff (encodeStream_length_le henc)).mpr hold
    rw [decodeAt, ← hrest, decodeStream_of_encodeStream henc]

/-- Settles O1: a slot counts and holds the instruction's stream form, and Decode answers where that stands. -/
theorem decodeOfEncode : Obligations.DecodeOfEncode := by
  intro i slot m off h hm
  obtain ⟨stream, henc, rfl⟩ := encode_eq_ok_iff.mp h
  have hcount : ((slotOf stream).getD 0 0).toNat / 8 = stream.length := by
    rw [slotOf_count (encodeStream_length_le henc), Nat.mul_div_cancel_left _ (by decide)]
  rw [hcount] at hm ⊢
  refine decodeAt_eq_ok_iff.mpr ⟨stream, henc, rfl, fun k hk => ?_⟩
  rw [← slotOf_getD_succ hk]
  exact hm k hk

/-- Settles O2: what decodes stands in memory as its stream form, which is the inside of its slot. -/
theorem encodeOfDecode : Obligations.EncodeOfDecode := by
  intro m off i n h
  obtain ⟨stream, henc, rfl, hold⟩ := decodeAt_eq_ok_iff.mp h
  have hslot : encode i = .ok (slotOf stream) := encode_eq_ok_iff.mpr ⟨stream, henc, rfl⟩
  refine ⟨(wellFormed_iff_encode_ok i).mpr ⟨_, hslot⟩, slotOf stream, hslot,
    slotOf_count (encodeStream_length_le henc), fun k hk => ?_⟩
  rw [slotOf_getD_succ hk]
  exact hold k hk

/-! ## The bytes consumed (R68) -/

/-- A stream form begins with a byte that R70 gives its length. -/
theorem encodeStream_head {i : Instr} {stream : List Byte} (h : encodeStream i = .ok stream) :
    ∃ h0 : 0 < stream.length, stream.length = lengthOfOpcodeByte stream[0] := by
  obtain ⟨_, _, _, hlen⟩ := streamLength i stream h
  obtain ⟨rfl, _⟩ := Laws.StreamLength.stream_eq h
  exact ⟨Nat.succ_pos _, hlen⟩

/-- The count of a decode is R70's length of the byte at its address (R68). -/
theorem count_of_decodeAt {m : Memory} {off n : Nat} {i : Instr} (h : decodeAt m off = .ok (i, n)) :
    n = lengthOfOpcodeByte (m.byteAt off) := by
  obtain ⟨stream, henc, rfl, hold⟩ := decodeAt_eq_ok_iff.mp h
  obtain ⟨h0, hlen⟩ := encodeStream_head henc
  rw [hlen, ← (hold 0 h0).2, Nat.add_zero]

/-- Settles O9: a decode is its stream form standing in memory, which any memory with those bytes holds too. -/
theorem bytesConsumed : Obligations.BytesConsumed := by
  intro m off i n h
  obtain ⟨stream, henc, rfl, hold⟩ := decodeAt_eq_ok_iff.mp h
  obtain ⟨_, hmin, hmax, _⟩ := streamLength i stream henc
  refine ⟨hmin, hmax, count_of_decodeAt h, fun m' hsize hbytes => ?_⟩
  refine decodeAt_eq_ok_iff.mpr ⟨stream, henc, rfl, fun k hk => ?_⟩
  obtain ⟨_, hbyte⟩ := hold k hk
  exact ⟨by omega, (hbytes k hk).trans hbyte⟩

/-- What decodes lies in memory (R65). -/
theorem decodeAt_fits {m : Memory} {off n : Nat} {i : Instr} (h : decodeAt m off = .ok (i, n)) : off + n ≤ m.size := by
  obtain ⟨stream, henc, rfl, hold⟩ := decodeAt_eq_ok_iff.mp h
  obtain ⟨_, hmin, _, _⟩ := streamLength i stream henc
  obtain ⟨hlast, _⟩ := hold (stream.length - 1) (by omega)
  omega

/-! ## The nine refused forms (R61) -/

/-- The ill-formed instructions: a constant operand A in a one-byte position (R61). -/
theorem wellFormed_eq_false_iff (i : Instr) : i.wellFormed = false ↔
    ∃ (k : Word) (r : Reg), i = .shr (.constant k) r ∨ i = .shl (.constant k) r ∨ i = .cmp (.constant k) r ∨
      i = .jmp (.constant k) ∨ i = .jeq (.constant k) ∨ i = .jne (.constant k) ∨ i = .jgt (.constant k) ∨
      i = .jlt (.constant k) ∨ i = .push (.constant k) := by
  constructor
  · intro h
    cases i with
    | shr a r | shl a r | cmp a r =>
      cases a with
      | constant k => exact ⟨k, r, by simp⟩
      | register q => cases h
    | jmp a | jeq a | jne a | jgt a | jlt a | push a =>
      cases a with
      | constant k => exact ⟨k, .A, by simp⟩
      | register q => cases h
    | _ => cases h
  · rintro ⟨k, r, rfl | rfl | rfl | rfl | rfl | rfl | rfl | rfl | rfl⟩ <;> rfl

/-- Settles O3: the encoder refuses the ill-formed instructions, which are the nine constant forms. -/
theorem encoderRefusals : Obligations.EncoderRefusals := by
  intro i
  have hok := wellFormed_iff_encode_ok i
  rw [← wellFormed_eq_false_iff]
  cases hwf : i.wellFormed with
  | false => simp [encode_of_illFormed hwf]
  | true =>
    obtain ⟨slot, hslot⟩ := hok.mp hwf
    simp [hslot]

/-! ## The shape of a slot (R52, R53, R60) -/

/-- The payload is the operands' bytes, operand A's first (R53, R60). -/
theorem payload_eq_flatMap (i : Instr) : i.payload = (operandsOf i).flatMap Operand.payload := by
  cases i <;> simp [Instr.payload, operandsOf, Operand.payload]

/-- The fields of an opcode byte do not overlap (R52). -/
theorem opcodeByte_toNat (op : Op) (fa fb : Bool) :
    (opcodeByte op fa fb).toNat = op.number <<< 3 ||| fa.toNat <<< 1 ||| fb.toNat := by
  cases op <;> cases fa <;> cases fb <;> rfl

/-- Settles O4: the stream form of a well-formed instruction, in its slot. -/
theorem slotShape : Obligations.SlotShape := by
  refine ⟨fun r => rfl, fun k => rfl, fun i => ⟨payload_eq_flatMap i, encode_of_illFormed, fun hwf => ?_⟩⟩
  obtain ⟨hlo, hhi⟩ := Instr.payload_length_of_wellFormed hwf
  refine ⟨opcodeByte i.op i.fa i.fb, _, encode_eq_ok_iff.mpr ⟨_, encodeStream_of_wellFormed hwf, rfl⟩,
    opcodeByte_toNat i.op i.fa i.fb, ?_, ?_, hlo, hhi⟩
  · have hzeros : maxStreamBytes - (i.payload.length + 1) = 4 - i.payload.length := Nat.add_sub_add_right 4 1 _
    rw [slotOf, List.length_cons, hzeros, Nat.add_comm 1]
  · simp only [slotOf, maxStreamBytes, List.length_append, List.length_cons, List.length_replicate]
    omega

/-! ## The errors of a decode, by the byte at its address (R63 to R67) -/

theorem lengthOfOpcodeByte_of_none {ob : Byte} (h : Op.ofByte ob = none) : lengthOfOpcodeByte ob = 0 := by
  simp only [lengthOfOpcodeByte, h]

theorem lengthOfOpcodeByte_of_some {ob : Byte} {op : Op} (h : Op.ofByte ob = some op) :
    lengthOfOpcodeByte ob = if op.hasForm ob then op.format.bytes (flagA ob) (flagB ob) else 0 := by
  simp only [lengthOfOpcodeByte, h]

theorem Format.bytes_pos (f : Format) (fa fb : Bool) : 0 < f.bytes fa fb := by
  cases f <;> cases fa <;> cases fb <;> decide

/-- The bytes R70 gives a length are those with an opcode number and a legal form (R69). -/
theorem lengthOfOpcodeByte_ne_zero_iff (ob : Byte) :
    lengthOfOpcodeByte ob ≠ 0 ↔ ∃ op, Op.ofByte ob = some op ∧ op.hasForm ob = true := by
  cases h : Op.ofByte ob with
  | none => simp [lengthOfOpcodeByte_of_none h]
  | some op => simp [lengthOfOpcodeByte_of_some h, (Format.bytes_pos _ _ _).ne']

/-- What an error in the operand bytes is: the end of memory, or a byte in memory that is no register code. -/
def OperandError (m : Memory) (e : DecodeError) : Prop :=
  e = .truncatedStream m.size ∨
    ∃ a, a < m.size ∧ Reg.ofCode (m.byteAt a) = none ∧ e = .invalidRegisterCode (m.byteAt a) a

/-- A fetch error in the window after the opcode byte, said of memory. -/
theorem operandError_of_fetchError {m : Memory} {off : Nat} {e : DecodeError} (ho : off < m.size)
    (h : FetchError 4 ⟨off + 1, m.window (off + 1) 4⟩ e) : OperandError m e := by
  obtain ⟨hlen, rfl⟩ | ⟨k, b, _, hb, hcode, rfl⟩ := h
  · rw [Memory.window_length] at hlen
    have hend : off + 1 + min 4 (m.size - (off + 1)) = m.size := by omega
    rw [Memory.window_length, hend]
    exact .inl rfl
  · rw [Memory.window_getElem?, Option.ite_none_right_eq_some, Option.some.injEq] at hb
    obtain ⟨⟨_, ha⟩, rfl⟩ := hb
    exact .inr ⟨off + 1 + k, ha, hcode, rfl⟩

/-- A decode in memory reads the byte there and at most four after it (R62). -/
theorem decodeAt_eq_decodeStream_cons {m : Memory} {off : Nat} (ho : off < m.size) :
    decodeAt m off = decodeStream off (m.byteAt off :: m.window (off + 1) 4) := by
  rw [decodeAt, maxStreamBytes, Memory.window_succ 4 ho]

/-- Everything a decode at an address in memory can answer, by the byte there (R62 to R67). -/
theorem decodeAt_cases {m : Memory} {off : Nat} (ho : off < m.size) :
    (Op.ofByte (m.byteAt off) = none ∧ decodeAt m off = .error (.unknownOpcode (m.byteAt off) off)) ∨
    (Op.ofByte (m.byteAt off) ≠ none ∧ lengthOfOpcodeByte (m.byteAt off) = 0 ∧
      decodeAt m off = .error (.reservedForm (m.byteAt off) off)) ∨
    (lengthOfOpcodeByte (m.byteAt off) ≠ 0 ∧
      ((∃ i n, decodeAt m off = .ok (i, n)) ∨ ∃ e, decodeAt m off = .error e ∧ OperandError m e)) := by
  have hlen := lengthOfOpcodeByte_ne_zero_iff (m.byteAt off)
  rw [decodeAt_eq_decodeStream_cons ho]
  obtain h | ⟨op, hop, ⟨hf, he⟩ | ⟨hf, ⟨i, _, hi, _⟩ | ⟨e, he, hfe⟩⟩⟩ :=
    decodeStream_cases off (m.byteAt off) (m.window (off + 1) 4)
  · exact .inl h
  · refine .inr (.inl ⟨by rw [hop]; exact Option.some_ne_none op, ?_, he⟩)
    rw [lengthOfOpcodeByte_of_some hop, hf, if_neg Bool.false_ne_true]
  · exact .inr (.inr ⟨hlen.mpr ⟨op, hop, hf⟩, .inl ⟨i, _, hi⟩⟩)
  · exact .inr (.inr ⟨hlen.mpr ⟨op, hop, hf⟩, .inr ⟨e, he, operandError_of_fetchError ho hfe⟩⟩)

/-- A decode beyond memory finds no opcode byte (R65). -/
theorem decodeAt_of_size_le {m : Memory} {off : Nat} (h : m.size ≤ off) :
    decodeAt m off = .error (.truncatedStream off) := by
  have hwin : m.window off maxStreamBytes = [] := if_neg (Nat.not_lt.mpr h)
  rw [decodeAt, hwin]
  rfl

/-- What an error of a decode in memory says of the byte there, or of the operand bytes (R63 to R67). -/
theorem decodeAt_error_cases {m : Memory} {off : Nat} {e : DecodeError} (ho : off < m.size)
    (h : decodeAt m off = .error e) :
    (Op.ofByte (m.byteAt off) = none ∧ e = .unknownOpcode (m.byteAt off) off) ∨
    (Op.ofByte (m.byteAt off) ≠ none ∧ lengthOfOpcodeByte (m.byteAt off) = 0 ∧
      e = .reservedForm (m.byteAt off) off) ∨
    OperandError m e := by
  obtain ⟨hop, he⟩ | ⟨hop, hlen, he⟩ | ⟨_, ⟨i, n, hi⟩ | ⟨e', he, herr⟩⟩ := decodeAt_cases ho
  · cases he.symm.trans h
    exact .inl ⟨hop, rfl⟩
  · cases he.symm.trans h
    exact .inr (.inl ⟨hop, hlen, rfl⟩)
  · cases hi.symm.trans h
  · cases he.symm.trans h
    exact .inr (.inr herr)

theorem not_operandError_unknownOpcode {m : Memory} {a : Nat} {ob : Byte} :
    ¬ OperandError m (.unknownOpcode ob a) := by
  rintro (h | ⟨_, _, _, h⟩) <;> cases h

theorem not_operandError_reservedForm {m : Memory} {a : Nat} {ob : Byte} :
    ¬ OperandError m (.reservedForm ob a) := by
  rintro (h | ⟨_, _, _, h⟩) <;> cases h

/-- UnknownOpcode is the answer for a byte that names no instruction, and carries it and its address (R63). -/
theorem decodeAt_eq_unknownOpcode_iff {m : Memory} {off : Nat} (ho : off < m.size) (ob : Byte) (a : Nat) :
    decodeAt m off = .error (.unknownOpcode ob a) ↔ Op.ofByte (m.byteAt off) = none ∧ ob = m.byteAt off ∧ a = off := by
  constructor
  · intro h
    obtain ⟨hop, he⟩ | ⟨_, _, he⟩ | herr := decodeAt_error_cases ho h
    · cases he
      exact ⟨hop, rfl, rfl⟩
    · cases he
    · exact absurd herr not_operandError_unknownOpcode
  · rintro ⟨hop, rfl, rfl⟩
    exact decodeAt_of_no_opcode ho hop

/-- ReservedForm is the answer for a byte that names an instruction and is none of its forms (R66). -/
theorem decodeAt_eq_reservedForm_iff {m : Memory} {off : Nat} (ho : off < m.size) (ob : Byte) (a : Nat) :
    decodeAt m off = .error (.reservedForm ob a) ↔
      (Op.ofByte (m.byteAt off) ≠ none ∧ lengthOfOpcodeByte (m.byteAt off) = 0) ∧ ob = m.byteAt off ∧ a = off := by
  constructor
  · intro h
    obtain ⟨_, he⟩ | ⟨hop, hlen, he⟩ | herr := decodeAt_error_cases ho h
    · cases he
    · cases he
      exact ⟨⟨hop, hlen⟩, rfl, rfl⟩
    · exact absurd herr not_operandError_reservedForm
  · rintro ⟨⟨hop, hlen⟩, rfl, rfl⟩
    obtain ⟨hnone, _⟩ | ⟨_, _, he⟩ | ⟨hne, _⟩ := decodeAt_cases ho
    · exact absurd hnone hop
    · exact he
    · exact absurd hlen hne

/-- Bits 7:3 of a byte, as a number (R52). -/
theorem opcodeBits_toNat (ob : Byte) : (ob.extractLsb' 3 5).toNat = ob.toNat / 8 := by
  have := ob.isLt
  simp only [BitVec.extractLsb'_toNat, Nat.shiftRight_eq_div_pow]
  omega

/-- Settles O5: the bytes that name no instruction, by their bits 7:3 and by their range. -/
theorem unknownOpcodeExactly : Obligations.UnknownOpcodeExactly := by
  intro m off ho
  have hiff := decodeAt_eq_unknownOpcode_iff ho
  have hnone := (hiff (m.byteAt off) off).trans (and_iff_left ⟨rfl, rfl⟩)
  refine ⟨?_, hnone.trans (Op.ofByte_eq_none_iff _), fun ob a h => ((hiff ob a).mp h).2⟩
  rw [hnone, ← BitVec.toNat_inj, opcodeBits_toNat]
  exact Op.ofNumber_eq_none_iff _

/-! ## The map of the opcode bytes (R69) -/

/-- The 29 opcode bytes of R69. -/
def formBytes : List Byte :=
  [0x08, 0x09, 0x0A, 0x0B, 0x11, 0x13, 0x19, 0x1B, 0x21, 0x23, 0x29, 0x2B, 0x31, 0x33, 0x39, 0x3B, 0x41, 0x43, 0x4B, 0x53,
    0x5B, 0x61, 0x6A, 0x72, 0x7A, 0x82, 0x8A, 0x92, 0x99]

theorem opcodeByte_mem_formBytes (op : Op) (fa fb : Bool) :
    op.format.kinds.contains (fa, fb) = true → opcodeByte op fa fb ∈ formBytes := by
  cases op <;> cases fa <;> cases fb <;> decide

theorem lengthOfOpcodeByte_ne_zero_of_mem : ∀ ob ∈ formBytes, lengthOfOpcodeByte ob ≠ 0 := by decide

/-- The bytes R70 gives a length are the bytes of R69's table. -/
theorem mem_formBytes_iff (ob : Byte) : ob ∈ formBytes ↔ lengthOfOpcodeByte ob ≠ 0 := by
  refine ⟨lengthOfOpcodeByte_ne_zero_of_mem ob, fun h => ?_⟩
  obtain ⟨op, hop, hf⟩ := (lengthOfOpcodeByte_ne_zero_iff ob).mp h
  obtain ⟨hob, hk⟩ := opcodeByte_of_form hop hf
  exact hob ▸ opcodeByte_mem_formBytes op _ _ hk

/-- Settles O6: ReservedForm is left to the bytes that name an instruction and are not in the table. -/
theorem opcodeByteMap : Obligations.OpcodeByteMap := by
  refine ⟨by decide, fun m off ho => ?_⟩
  have hiff := decodeAt_eq_reservedForm_iff ho
  refine ⟨?_, fun ob a h => ((hiff ob a).mp h).2⟩
  have hmem : m.byteAt off ∉ formBytes ↔ lengthOfOpcodeByte (m.byteAt off) = 0 := by
    rw [mem_formBytes_iff, not_not]
  rw [hiff, and_iff_left ⟨rfl, rfl⟩, ne_eq, Op.ofByte_eq_none_iff, ← hmem]
  exact and_congr_left' (by omega)

/-- Settles O8: truncation is met at the end of memory only, and what decodes stands in memory. -/
theorem truncatedStream : Obligations.TruncatedStream := by
  intro m off
  refine ⟨decodeAt_of_size_le, fun a h => ?_, fun ho hlen hend => ?_, fun i n => decodeAt_fits⟩
  · rcases Nat.lt_or_ge off m.size with ho | ho
    · obtain ⟨_, he⟩ | ⟨_, _, he⟩ | he | ⟨_, _, _, he⟩ := decodeAt_error_cases ho h <;> cases he
      exact ⟨Nat.le_refl _, fun _ => rfl⟩
    · cases (decodeAt_of_size_le ho).symm.trans h
      exact ⟨ho, fun hlt => absurd ho (Nat.not_le.mpr hlt)⟩
  · obtain ⟨hop, _⟩ | ⟨_, hzero, _⟩ | ⟨_, ⟨i, n, hi⟩ | ⟨e, he, rfl | ⟨a, _, _, rfl⟩⟩⟩ := decodeAt_cases ho
    · exact absurd (lengthOfOpcodeByte_of_none hop) hlen
    · exact absurd hzero hlen
    · have hfits := decodeAt_fits hi
      rw [count_of_decodeAt hi] at hfits
      omega
    · exact .inl he
    · exact .inr ⟨_, a, he⟩

/-! ## Register positions (R64) -/

/-- The bytes that are no register code (R64). -/
theorem Reg.ofCode_eq_none_iff (c : Byte) : Reg.ofCode c = none ↔ c.toNat = 0 ∨ 13 ≤ c.toNat := by
  obtain ⟨_, _, _, h⟩ := registerCodes
  exact h c

/-- How the operands are fetched in each format (R55 to R59, R62). -/
def Format.Fetches (f : Format) (d : Bool → Bool → Cursor → Except DecodeError (Instr × Cursor)) : Prop :=
  match f with
  | .LD => ∃ mk, d = Cursor.twoOperands mk
  | .AL | .SC => ∃ mk, d = fun fa _ => Cursor.operandReg mk fa
  | .UB => ∃ mk, d = fun _ _ => Cursor.soleReg mk
  | .UA => ∃ mk, d = fun fa _ => Cursor.soleOperand mk fa

theorem decodeOperands_fetches (op : Op) : Format.Fetches op.format (decodeOperands op) := by
  cases op <;> exact ⟨_, rfl⟩

theorem Cursor.getOperand_true_error {c : Cursor} {e : DecodeError} (h : c.getReg = .error e) :
    c.getOperand true = .error e := by
  simp only [Cursor.getOperand, if_true, h, bind, Except.bind]

/-- A form that begins with a register position has a register operand A, unless it has no operand A (R55 to R59). -/
theorem Format.fa_of_register_first (f : Format) {fa fb : Bool} :
    f.kinds.contains (fa, fb) = true → fa = true ∨ f.bytes fa fb = 2 → f ≠ .UB → fa = true := by
  cases f <;> cases fa <;> cases fb <;> decide

/-- A form of four bytes that ends with a register begins with an immediate (R55, R56). -/
theorem Format.fa_of_four_bytes (f : Format) {fa : Bool} :
    f.kinds.contains (fa, true) = true → f.bytes fa true = 4 → fa = false ∧ f ≠ .UB := by
  cases f <;> cases fa <;> decide

/-- A form with two registers has both operands (R58). -/
theorem Format.ne_UB_of_two_registers (f : Format) : f.kinds.contains (true, true) = true → f ≠ .UB := by
  cases f <;> decide

/-- An error at a register position that stands first fails the whole fetch (R53, R67). -/
theorem decodeOperands_error_first {op : Op} {fa fb : Bool} {c : Cursor} {e : DecodeError}
    (hpos : fa = true ∨ op.format.bytes fa fb = 2) (hk : op.format.kinds.contains (fa, fb) = true)
    (h : c.getReg = .error e) : decodeOperands op fa fb c = .error e := by
  have hop := Cursor.getOperand_true_error h
  have hfetch := decodeOperands_fetches op
  have htrue := Format.fa_of_register_first op.format hk hpos
  generalize op.format = f at hfetch htrue
  cases f with
  | UB =>
    obtain ⟨mk, hd⟩ := hfetch
    simp only [hd, Cursor.soleReg, h, bind, Except.bind]
  | LD =>
    obtain ⟨mk, hd⟩ := hfetch
    obtain rfl := htrue (by decide)
    simp only [hd, Cursor.twoOperands, hop, bind, Except.bind]
  | AL | SC =>
    obtain ⟨mk, hd⟩ := hfetch
    obtain rfl := htrue (by decide)
    simp only [hd, Cursor.operandReg, hop, bind, Except.bind]
  | UA =>
    obtain ⟨mk, hd⟩ := hfetch
    obtain rfl := htrue (by decide)
    simp only [hd, Cursor.soleOperand, hop, bind, Except.bind]

/-- An error at operand B's register position, after an operand A was fetched, fails the whole fetch (R53, R67). -/
theorem decodeOperands_error_second {op : Op} {fa : Bool} {c c' : Cursor} {a : Operand} {e : DecodeError}
    (hne : op.format ≠ .UB) (hk : op.format.kinds.contains (fa, true) = true)
    (ha : c.getOperand fa = .ok (a, c')) (h : c'.getReg = .error e) : decodeOperands op fa true c = .error e := by
  have hfetch := decodeOperands_fetches op
  generalize op.format = f at hfetch hk hne
  cases f with
  | UB => exact absurd rfl hne
  | LD =>
    obtain ⟨mk, hd⟩ := hfetch
    simp only [hd, Cursor.twoOperands, ha, Cursor.getOperand_true_error h, bind, Except.bind]
  | AL | SC =>
    obtain ⟨mk, hd⟩ := hfetch
    simp only [hd, Cursor.operandReg, ha, h, bind, Except.bind]
  | UA => cases fa <;> cases hk

/-- A byte with a form fetches its operands in the window after it, and fails as they do (R62). -/
theorem decodeAt_form {m : Memory} {off : Nat} (ho : off < m.size) (h : lengthOfOpcodeByte (m.byteAt off) ≠ 0) :
    ∃ op : Op, op.format.kinds.contains (flagA (m.byteAt off), flagB (m.byteAt off)) = true ∧
      lengthOfOpcodeByte (m.byteAt off) = op.format.bytes (flagA (m.byteAt off)) (flagB (m.byteAt off)) ∧
      ∀ e, decodeOperands op (flagA (m.byteAt off)) (flagB (m.byteAt off)) ⟨off + 1, m.window (off + 1) 4⟩ = .error e →
        decodeAt m off = .error e := by
  obtain ⟨op, hop, hf⟩ := (lengthOfOpcodeByte_ne_zero_iff _).mp h
  obtain ⟨_, hk⟩ := opcodeByte_of_form hop hf
  refine ⟨op, hk, by rw [lengthOfOpcodeByte_of_some hop, if_pos hf], fun e he => ?_⟩
  rw [decodeAt_eq_decodeStream_cons ho]
  simp only [decodeStream, Cursor.fetch_cons, bind, Except.bind, hop, hf, if_true, he]

/-- A byte in memory that is no register code fails a fetch of one, with the byte and its address (R64). -/
theorem getReg_window_error {m : Memory} {a n : Nat} (ha : a < m.size) (h : Reg.ofCode (m.byteAt a) = none) :
    Cursor.getReg ⟨a, m.window a (n + 1)⟩ = .error (.invalidRegisterCode (m.byteAt a) a) := by
  simp only [Memory.window_succ n ha, Cursor.getReg, Cursor.fetch_cons, bind, Except.bind, h]

theorem getOperand_window_register {m : Memory} {a n : Nat} {r : Reg} (ha : a < m.size)
    (hr : Reg.ofCode (m.byteAt a) = some r) :
    Cursor.getOperand true ⟨a, m.window a (n + 1)⟩ = .ok (.register r, ⟨a + 1, m.window (a + 1) n⟩) := by
  rw [Memory.window_succ n ha, ← Reg.code_of_ofCode hr]
  exact Cursor.getOperand_payload a (.register r) _

theorem getOperand_window_constant {m : Memory} {a n : Nat} (ha : a + 1 < m.size) :
    Cursor.getOperand false ⟨a, m.window a (n + 2)⟩ =
      .ok (.constant (bytesToWord (m.byteAt a) (m.byteAt (a + 1))), ⟨a + 2, m.window (a + 2) n⟩) := by
  rw [Memory.window_succ (n + 1) (by omega), Memory.window_succ n ha]
  rfl

/-- Settles O7: a fetch fails at the first bad register position, and at no other byte. -/
theorem invalidRegisterCode : Obligations.InvalidRegisterCode := by
  intro m off ob bad
  have hbad : ∀ a, bad a ↔ Reg.ofCode (m.byteAt a) = none := fun a => (Reg.ofCode_eq_none_iff _).symm
  refine ⟨fun h1 hlen hpos hb => ?_, fun h2 hlen hA hB hgood hb => ?_, fun h3 hlen hB hb => ?_, fun c a h => ?_⟩
  · obtain ⟨op, hk, hbytes, herr⟩ := decodeAt_form (by omega) hlen
    exact herr _ (decodeOperands_error_first (hbytes ▸ hpos) hk (getReg_window_error h1 ((hbad _).mp hb)))
  · obtain ⟨op, hk, _, herr⟩ := decodeAt_form (by omega) hlen
    obtain ⟨r, hr⟩ := Option.ne_none_iff_exists'.mp (mt (hbad _).mpr hgood)
    rw [hA, hB] at hk herr
    exact herr _ (decodeOperands_error_second (Format.ne_UB_of_two_registers _ hk) hk
      (getOperand_window_register (by omega) hr) (getReg_window_error h2 ((hbad _).mp hb)))
  · obtain ⟨op, hk, hbytes, herr⟩ := decodeAt_form (m := m) (off := off) (by omega) (by rw [hlen]; decide)
    rw [hB] at hk hbytes herr
    obtain ⟨hA, hne⟩ := Format.fa_of_four_bytes op.format hk (hbytes.symm.trans hlen)
    rw [hA] at hk herr
    exact herr _ (decodeOperands_error_second hne hk (getOperand_window_constant (by omega))
      (getReg_window_error h3 ((hbad _).mp hb)))
  · have ho : off < m.size := by
      by_contra ho
      cases (decodeAt_of_size_le (Nat.not_lt.mp ho)).symm.trans h
    obtain ⟨_, he⟩ | ⟨_, _, he⟩ | he | ⟨_, ha, hcode, he⟩ := decodeAt_error_cases ho h <;> cases he
    exact ⟨ha, rfl, (hbad _).mpr hcode⟩

/-! ## Tables and sample words (R54; 95_test_vectors.md table E) -/

/-- Settles O12: `Op.ofNumber` inverts `Op.number`, whose values are 1 to 19 in the order of R54. -/
theorem opcodeNumbers : Obligations.OpcodeNumbers := by
  refine ⟨rfl, fun op => by cases op <;> decide, fun n op => ⟨Op.number_of_ofNumber, ?_⟩⟩
  rintro rfl
  exact Op.ofNumber_number op

/-- Settles O10: the decoder runs on the six streams. -/
theorem sampleWords : Obligations.SampleWords := ⟨rfl, rfl, rfl, rfl, rfl, rfl⟩

/-! ## The written form (R74) -/

/-- The unsigned pattern of a word is in the range of a number and denotes the word. -/
theorem numberPattern_toNat (k : Word) : numberPattern k.toNat = some k := by
  have := k.isLt
  rw [numberPattern, if_pos (by omega), u16_toNat]

/-- An operand is read back off the front of what it is written before. -/
theorem parseOperand_writeOperand (a : Operand) (rest : List Token) :
    parseOperand (writeOperand a ++ rest) = some (a, rest) := by
  cases a with
  | constant k => simp [writeOperand, parseOperand, numberPattern_toNat]
  | register r => rfl

theorem parseTwoOperands_written (mk : Operand → Operand → Instr) (a b : Operand) :
    parseTwoOperands mk (.leftParen :: writeOperand a ++ .comma :: writeOperand b ++ [.rightParen]) = some (mk a b) := by
  simp [parseTwoOperands, parseOperand_writeOperand]

theorem parseOperandReg_written (mk : Operand → Reg → Instr) (a : Operand) (r : Reg) :
    parseOperandReg mk (.leftParen :: writeOperand a ++ [.comma, .reg r, .rightParen]) = some (mk a r) := by
  simp [parseOperandReg, parseOperand_writeOperand]

theorem parseSoleOperand_written (mk : Operand → Instr) (a : Operand) :
    parseSoleOperand mk (.leftParen :: writeOperand a ++ [.rightParen]) = some (mk a) := by
  simp [parseSoleOperand, parseOperand_writeOperand]

/-- Settles O13: each shape of operands is read back as it is written. -/
theorem writtenFormReads : Obligations.WrittenFormReads := by
  intro i
  cases i with
  | load a b => exact parseTwoOperands_written .load a b
  | not r | pop r => rfl
  | sum a r | sub a r | mul a r | div a r | and a r | or a r | xor a r | shr a r | shl a r | cmp a r =>
    exact parseOperandReg_written _ a r
  | jmp a | jeq a | jne a | jgt a | jlt a | push a => exact parseSoleOperand_written _ a

end Sys2Proof.Machine
end

section
/-! PROOFS. The statements of the family of spec/40_load.md: what each of the four forms of Load writes and leaves, and
its two fatal faults. -/

namespace Sys2Proof.Machine

/-! ## Values a register holds as they are (10_state.md R14) -/

theorem storedValue_s16 (p : Word) : storedValue .w16 (s16 p) = s16 p := storedValue_of_fits (fitsS16_s16 p)

theorem storedValue_byte (b : Byte) : storedValue .w8 (b.toNat : Int) = (b.toNat : Int) :=
  Int.emod_eq_of_lt (by omega) (by have := b.isLt; omega)

/-- The byte of an alias is what the alias reads as (R13, decision D13). -/
theorem State.u8_readReg_toNat (s : State) {r : Reg} (hw : regWidth r = .w8) :
    ((u8 (s.readReg r)).toNat : Int) = s.readReg r := by
  have hstored := storedValue_readReg s (q := r) (r := r) rfl
  rw [hw] at hstored
  exact (u8_toNat_eq _).trans hstored

/-! ## The three ends of a Load (40_load.md R85) -/

/-- A Load that writes a register with a value of its width leaves that value there and touches nothing else. -/
theorem exec_load_writeReg {a : Operand} {rd : Reg} {s : State} {v : Int}
    (h : s.loadForm a (.register rd) = .ok (s.writeReg rd v)) (hv : storedValue (regWidth rd) v = v) :
    ∃ t, exec (.load a (.register rd)) s = .next t ∧ t.readReg rd = v ∧ OnlyReg rd s t ∧ SameFlags s t :=
  ⟨_, exec_load_of_ok h, (s.readReg_writeReg_same rd v).trans hv, onlyReg_writeReg s rd v, sameFlags_writeReg s rd v⟩

/-- A Load that raises a fatal fault halts the machine with it and touches nothing else (60_exceptions.md R135). -/
theorem exec_load_haltedAs {a b : Operand} {s : State} {f : FatalFault} (h : s.loadForm a b = .error f) :
    ∃ t, exec (.load a b) s = .next t ∧ HaltedAs (.fatal f) s t :=
  ⟨_, exec_load_of_error h, haltedAs_enterHalt s _⟩

theorem sameMemoryBut_setByte (s : State) (a : Nat) (b : Byte) :
    SameMemoryBut a 1 s (s.setMem (s.mem.setByte a b)) :=
  ⟨rfl, fun _ hx => s.mem.byteAt_setByte_other b (by omega)⟩

theorem sameMemoryBut_setWord (s : State) (a : Nat) (p : Word) :
    SameMemoryBut a 2 s (s.setMem (s.mem.setWord a p)) :=
  ⟨rfl, fun _ hx => s.mem.byteAt_setWord_other p hx⟩

/-! ## The forms (40_load.md R81 to R84) -/

/-- Settles O37: the source reads as a value of its width, which is the destination's. -/
theorem loadRegisterToRegister : Obligations.LoadRegisterToRegister :=
  fun _ _ s hw => exec_load_writeReg (s.loadRegReg_ok hw) (storedValue_readReg s hw)

/-- Settles O38: the width check fails before anything is written. -/
theorem loadWidthMismatch : Obligations.LoadWidthMismatch :=
  fun _ _ s hw => exec_load_haltedAs (s.loadRegReg_error hw)

/-- Settles O39: a word fits a 16-bit name as its signed value, a byte an alias. -/
theorem loadMemoryToRegister : Obligations.LoadMemoryToRegister := by
  refine fun k rd s => ⟨fun hw hb => ?_, fun hw hb => ?_⟩
  · exact exec_load_writeReg (s.loadMemReg_w16 hw hb) (by rw [hw]; exact storedValue_s16 _)
  · exact exec_load_writeReg (s.loadMemReg_w8 hw hb) (by rw [hw]; exact storedValue_byte _)

/-- Settles O40: the bytes stored are the two halves of the name's pattern, or the alias's own byte. -/
theorem loadRegisterToMemory : Obligations.LoadRegisterToMemory := by
  refine fun rs k s hm => ⟨fun hw hb => ?_, fun hw hb => ?_⟩
  · refine ⟨_, exec_load_of_ok (s.loadRegMem_w16 hw hb), ?_, sameMemoryBut_setWord s _ _, s.setMem_frame _⟩
    rw [State.setMem_mem, Memory.byteAt_setWord_first hm, Memory.byteAt_setWord_second hm _ (by omega),
      ← bytesToWord_toNat, bytesToWord_hiByte_loByte]
  · refine ⟨_, exec_load_of_ok (s.loadRegMem_w8 hw hb), ?_, sameMemoryBut_setByte s _ _, s.setMem_frame _⟩
    rw [State.setMem_mem, Memory.byteAt_setByte_same hm, s.u8_readReg_toNat hw]

/-- Settles O41: the word stored is made of the two source bytes of the old memory, wherever the destination lies. -/
theorem loadMemoryToMemory : Obligations.LoadMemoryToMemory := by
  intro ks kd s hm hs hd
  refine ⟨_, exec_load_of_ok (s.loadMemMem_ok hs hd), ?_, ?_, sameMemoryBut_setWord s _ _, s.setMem_frame _⟩
  · rw [State.setMem_mem, Memory.byteAt_setWord_first hm, hiByte_bytesToWord]
  · rw [State.setMem_mem, Memory.byteAt_setWord_second hm _ (by omega), loByte_bytesToWord]

/-- Settles O42: each form raises OutOfBounds for its access, memory to memory for its source first. -/
theorem loadOutOfBounds : Obligations.LoadOutOfBounds :=
  fun _ _ _ s => ⟨fun h => ⟨exec_load_haltedAs (s.loadMemReg_error h), exec_load_haltedAs (s.loadRegMem_error h)⟩,
    fun hs => exec_load_haltedAs (s.loadMemMem_source hs),
    fun hs hd => exec_load_haltedAs (s.loadMemMem_destination hs hd)⟩

end Sys2Proof.Machine
end

section
/-! PROOFS. The statements of the family of spec/41_arithmetic.md: the results of Sum, Sub, Mul and Div, the flag each
sets, and that nothing else changes. -/

namespace Sys2Proof.Machine

/-! ## Sum, Sub, Mul: the range rule (41_arithmetic.md R90) applied to the exact result -/

/-- Settles O43: Sum writes `B + A` by the range rule. -/
theorem sumResult : Obligations.SumResult := fun _ r s => ⟨_, rfl, s.writeRanged_spec r _⟩

/-- Settles O44: Sub writes `A - B` by the range rule; that order is the setting of SUB_ORDER in force (D14). -/
theorem subResult : Obligations.SubResult := fun _ r s => ⟨_, rfl, s.writeRanged_spec r _⟩

/-- Settles O45: both operand forms of Mul are well-formed, and Mul writes `A * B` by the range rule. -/
theorem mulResult : Obligations.MulResult :=
  ⟨fun _ _ _ => ⟨encodeStream_of_wellFormed rfl, encodeStream_of_wellFormed rfl⟩,
    fun _ r s => ⟨_, rfl, s.writeRanged_spec r _⟩⟩

/-! ## The quotient of Div (R94) -/

/-- Division rounded toward zero divides the absolute values and multiplies the signs (00_scope.md §7). -/
theorem tdiv_eq_sign_mul_natAbs_div (a b : Int) : a.tdiv b = a.sign * b.sign * ((a.natAbs / b.natAbs : Nat) : Int) := by
  calc a.tdiv b = (a.tdiv b).sign * ((a.tdiv b).natAbs : Int) := (Int.sign_mul_natAbs _).symm
    _ = (if a.natAbs < b.natAbs then 0 else a.sign * b.sign) * ((a.natAbs / b.natAbs : Nat) : Int) := by
      rw [Int.sign_tdiv, Int.natAbs_tdiv]; rfl
    _ = a.sign * b.sign * ((a.natAbs / b.natAbs : Nat) : Int) := by
      split
      · next hlt => simp [Nat.div_eq_of_lt hlt]
      · rfl

/-- A divisor of absolute value 2 or more at least halves the dividend, and -1 only takes -32768 out of range. -/
theorem fitsS16_tdiv {a b : Int} (ha : fitsS16 a) (h0 : b ≠ 0) (ho : ¬ (a = -32768 ∧ b = -1)) :
    fitsS16 (a.tdiv b) := by
  by_cases h1 : b = 1
  · rwa [h1, Int.tdiv_one]
  by_cases h2 : b = -1
  · rw [h2, Int.tdiv_neg, Int.tdiv_one]
    omega
  · have hhalf : (a.tdiv b).natAbs ≤ a.natAbs / 2 :=
      (Int.natAbs_tdiv a b).trans_le (Nat.div_le_div_left (by omega) (by omega))
    omega

/-- The three cases of Div (R94), the second as decision D15 has it. -/
theorem exec_div_cases {a : Operand} {r : Reg} {s t : State} (h : exec (.div a r) s = .next t) :
    (s.readReg r = 0 ∧ t = (s.writeReg r 0).setFlag .zero) ∨
    ((s.resolve a = -32768 ∧ s.readReg r = -1) ∧ t = (s.writeReg r 0).setFlag .overflow) ∨
    (s.readReg r ≠ 0 ∧ ¬ (s.resolve a = -32768 ∧ s.readReg r = -1) ∧
      t = s.writeReg r ((s.resolve a).tdiv (s.readReg r))) := by
  cases h
  by_cases h0 : s.readReg r = 0
  · exact .inl ⟨h0, if_pos h0⟩
  · rw [if_neg h0]
    by_cases ho : s.resolve a = -32768 ∧ s.readReg r = -1
    · exact .inr (.inl ⟨ho, if_pos ho⟩)
    · exact .inr (.inr ⟨h0, ho, if_neg ho⟩)

/-- Div touches no storage but its destination's, and flags. -/
theorem exec_div_onlyReg {a : Operand} {r : Reg} {s t : State} (h : exec (.div a r) s = .next t) : OnlyReg r s t := by
  rcases exec_div_cases h with ⟨_, rfl⟩ | ⟨_, rfl⟩ | ⟨_, _, rfl⟩
  · exact onlyReg_writeReg_setFlag s r 0 _
  · exact onlyReg_writeReg_setFlag s r 0 _
  · exact onlyReg_writeReg s r _

/-- A zero divisor, and the quotient out of range, leave 0 in the destination. -/
theorem exec_div_zero {a : Operand} {r : Reg} {s t : State} (h : exec (.div a r) s = .next t)
    (hz : s.readReg r = 0 ∨ s.resolve a = -32768 ∧ s.readReg r = -1) : t.readReg r = 0 := by
  rcases exec_div_cases h with ⟨_, rfl⟩ | ⟨_, rfl⟩ | ⟨h0, ho, _⟩
  · simp
  · simp
  · exact absurd hz (not_or.mpr ⟨h0, ho⟩)

/-- In every other case the destination holds the quotient, which is in range. -/
theorem exec_div_quotient {a : Operand} {r : Reg} {s t : State} (h : exec (.div a r) s = .next t)
    (h0 : s.readReg r ≠ 0) (ho : ¬ (s.resolve a = -32768 ∧ s.readReg r = -1)) :
    HoldsResult r ((s.resolve a).tdiv (s.readReg r)) t := by
  rcases exec_div_cases h with ⟨hz, _⟩ | ⟨hover, _⟩ | ⟨_, _, rfl⟩
  · exact absurd hz h0
  · exact absurd hover ho
  · exact holdsResult_writeReg s r (fitsS16_tdiv (s.fitsS16_resolve a) h0 ho)

/-- Settles O46: the three cases of Div, with the flags from R19's table. -/
theorem divResult : Obligations.DivResult := by
  intro a r s
  obtain ⟨t, ht, heffect⟩ := exec_effect (.div a r) s
  have hflags := exec_div_byTable ht
  refine ⟨t, ht, fun hz => exec_div_zero ht (.inl hz), fun ho => exec_div_zero ht (.inr ho), fun h0 ho => ?_,
    hflags .zero, hflags .overflow, fun f hz ho => ?_, heffect.reserved, exec_div_onlyReg ht⟩
  · rw [← tdiv_eq_sign_mul_natAbs_div]
    exact exec_div_quotient ht h0 ho
  · have hnone : ¬ flagCause f (.div a r) s := by
      cases f with
      | zero => exact absurd rfl hz
      | overflow => exact absurd rfl ho
      | _ => exact id
    rw [Bool.eq_iff_iff, hflags f, or_iff_left hnone]

end Sys2Proof.Machine
end

section
/-! PROOFS. The statements of the family of spec/42_logic_shift.md: the results of And, Or, Xor, Not, Shr and Shl, their
encodings, and that nothing else changes. -/

namespace Sys2Proof.Machine

/-! ## And, Or, Xor (42_logic_shift.md R107) -/

/-- Settles O47: both operand forms of each are well-formed, and each writes the bitwise result, a number below 65536,
as any register write does (O15). -/
theorem bitwiseResults : Obligations.BitwiseResults := by
  refine ⟨fun q r k => ?_, fun a r s => ⟨⟨_, rfl, ?_⟩, ⟨_, rfl, ?_⟩, ⟨_, rfl, ?_⟩⟩⟩
  · refine ⟨?_, ?_, ?_, ?_, ?_, ?_⟩ <;> exact encodeStream_of_wellFormed rfl
  · rw [← BitVec.toNat_and]
    exact registerWrite s r _
  · rw [← BitVec.toNat_or]
    exact registerWrite s r _
  · rw [← BitVec.toNat_xor]
    exact registerWrite s r _

/-! ## Not (R103) -/

/-- Complementing the pattern of `v` gives the pattern of `-1 - v`. -/
theorem not_u16 (v : Int) : ~~~ u16 v = u16 (-1 - v) := by
  apply BitVec.eq_of_toNat_eq
  have hv := u16_toNat_eq v
  have hnot := u16_toNat_eq (-1 - v)
  rw [BitVec.toNat_not]
  omega

/-- A name of either width keeps no more of an integer than its pattern (10_state.md R14). -/
theorem storedValue_u16_toNat (w : Width) (v : Int) : storedValue w ((u16 v).toNat : Int) = storedValue w v := by
  cases w with
  | w16 => simp only [storedValue, u16_toNat]
  | w8 => rw [u16_toNat_eq]; exact Int.emod_emod_of_dvd v (by decide)

/-- `-1 - x`, written to the name that reads as `x`: it fits a 16-bit name, and modulo 256 it is `255 - x`. -/
theorem State.storedValue_complement (s : State) (r : Reg) :
    (regWidth r = .w16 → storedValue (regWidth r) (-1 - s.readReg r) = -1 - s.readReg r) ∧
      (regWidth r = .w8 → storedValue (regWidth r) (-1 - s.readReg r) = 255 - s.readReg r) := by
  have hrange := s.readReg_range r
  refine ⟨fun hw => ?_, fun hw => ?_⟩ <;> rw [hw] at hrange ⊢
  · obtain ⟨hlo, hhi⟩ := hrange
    exact storedValue_of_fits ⟨by omega, by omega⟩
  · obtain ⟨hlo, hhi⟩ := hrange
    simp only [storedValue]
    omega

/-- Not, executed once. -/
theorem exec_not_spec (r : Reg) (s : State) :
    ∃ t, exec (.not r) s = .next t ∧ (regWidth r = .w16 → t.readReg r = -1 - s.readReg r) ∧
      (regWidth r = .w8 → t.readReg r = 255 - s.readReg r) ∧ OnlyReg r s t ∧ SameFlags s t := by
  have hread : (s.writeReg r (~~~ s.readPattern r).toNat).readReg r = storedValue (regWidth r) (-1 - s.readReg r) := by
    rw [State.readReg_writeReg_same, State.readPattern, not_u16, storedValue_u16_toNat]
  obtain ⟨hword, hbyte⟩ := s.storedValue_complement r
  exact ⟨_, rfl, fun hw => hread.trans (hword hw), fun hw => hread.trans (hbyte hw), onlyReg_writeReg s r _,
    sameFlags_writeReg s r _⟩

/-- Settles O48: at each width the complement is its own inverse. -/
theorem notResult : Obligations.NotResult := by
  refine ⟨fun r => encodeStream_of_wellFormed rfl, fun r s => ?_⟩
  obtain ⟨t, ht, hword, hbyte, hframe, hflags⟩ := exec_not_spec r s
  obtain ⟨u, hu, hword', hbyte', _, _⟩ := exec_not_spec r t
  refine ⟨t, u, ht, hword, hbyte, hframe, hflags, hu, ?_⟩
  cases hw : regWidth r with
  | w16 => rw [hword' hw, hword hw]; omega
  | w8 => rw [hbyte' hw, hbyte hw]; omega

/-! ## Shr and Shl: the guard (R104) over the shifted pattern -/

/-- Settles O49: only the register amount has an encoding, and a logical right shift divides by a power of two. -/
theorem shrResult : Obligations.ShrResult := by
  refine ⟨fun _ _ _ => ⟨encodeStream_of_wellFormed rfl, encodeStream_of_illFormed rfl⟩, fun a r s => ⟨_, rfl, ?_⟩⟩
  rw [← Nat.shiftRight_eq_div_pow, ← BitVec.toNat_ushiftRight]
  exact s.writeGuarded_spec r _ _

/-- Settles O50: only the register amount has an encoding, and a left shift multiplies by a power of two, modulo 65536. -/
theorem shlResult : Obligations.ShlResult := by
  refine ⟨fun _ _ _ => ⟨encodeStream_of_wellFormed rfl, encodeStream_of_illFormed rfl⟩, fun a r s => ⟨_, rfl, ?_⟩⟩
  rw [← Nat.shiftLeft_eq, ← BitVec.toNat_shiftLeft]
  exact s.writeGuarded_spec r _ _

end Sys2Proof.Machine
end

section
/-! PROOFS. The statements of the family of spec/43_compare_jump.md: the flag Cmp sets, when each jump is taken and
where it goes, the jumps' encodings, and that nothing else changes. -/

namespace Sys2Proof.Machine

/-! ## Cmp (43_compare_jump.md R110) -/

/-- A flag none of whose rows holds is left alone (10_state.md R19). -/
theorem FlagsByTable.flag_eq {i : Instr} {s t : State} (h : FlagsByTable i s t) {f : Flag} (hc : ¬ flagCause f i s) :
    t.flag f = s.flag f := by
  rw [Bool.eq_iff_iff, h f, or_iff_left hc]

/-- Settles O51: the three rows of Cmp in the table of flags are the three outcomes of the comparison, OVERFLOW and ZERO
have no row of Cmp, and setting a flag (O17) is all Cmp does. -/
theorem cmpResult : Obligations.CmpResult := by
  intro a r s
  have hexec : exec (.cmp a r) s = .next (s.setFlag (compareFlag (s.resolve a) (s.readReg r))) := rfl
  have hflags := flagsByTable_of_exec hexec
  obtain ⟨_, _, ⟨_, _, hreserved⟩, hframe⟩ := flagBits s (compareFlag (s.resolve a) (s.readReg r))
  exact ⟨_, hexec, hflags .equal, hflags .greaterThan, hflags .lowerThan, hflags.flag_eq id, hflags.flag_eq id,
    hreserved, hframe⟩

/-! ## The jumps (R111): one meaning, five conditions -/

theorem sameAllButPc_setPc (s : State) (v : Word) : SameAllButPc s (s.setPc v) :=
  ⟨s.setPc_readReg v, rfl, ⟨rfl, fun _ => rfl⟩, rfl, rfl, rfl, rfl⟩

theorem sameAllButPc_refl (s : State) : SameAllButPc s s :=
  ⟨fun _ => rfl, rfl, ⟨rfl, fun _ => rfl⟩, rfl, rfl, rfl, rfl⟩

theorem State.jumpIf_true (s : State) (a : Operand) : s.jumpIf true a = s.setPc (u16 (s.resolve a)) := rfl

theorem State.jumpIf_false (s : State) (a : Operand) : s.jumpIf false a = s := rfl

/-- A jump whose test decides `p` goes to the operand's pattern if `p` holds, and writes nothing but `pc`. -/
theorem State.jumpIf_spec (s : State) (a : Operand) {taken : Bool} {p : Prop} [Decidable p] (h : taken = true ↔ p) :
    (s.jumpIf taken a).pc = (if p then u16 (s.resolve a) else s.pc) ∧ SameAllButPc s (s.jumpIf taken a) := by
  cases taken with
  | true =>
    rw [s.jumpIf_true, if_pos (h.mp rfl)]
    exact ⟨rfl, sameAllButPc_setPc s _⟩
  | false =>
    rw [s.jumpIf_false, if_neg fun hp => Bool.false_ne_true (h.mpr hp)]
    exact ⟨rfl, sameAllButPc_refl s⟩

/-- Settles O52: the register form of each jump is well-formed, and each is the common jump on its own test; Jmp's test
holds always. -/
theorem jumpResults : Obligations.JumpResults := by
  refine ⟨fun q => ?_, fun a s => ⟨⟨_, rfl, ?jmp⟩, ⟨_, rfl, ?jeq⟩, ⟨_, rfl, ?jne⟩, ⟨_, rfl, ?jgt⟩, ⟨_, rfl, ?jlt⟩⟩⟩
  · refine ⟨?_, ?_, ?_, ?_, ?_⟩ <;> exact encodeStream_of_wellFormed rfl
  case jmp => exact ⟨rfl, sameAllButPc_setPc s _⟩
  case jne => exact s.jumpIf_spec a (iff_of_eq (Bool.not_eq_true' _))
  case jeq | jgt | jlt => exact s.jumpIf_spec a Iff.rfl

end Sys2Proof.Machine
end

section
/-! PROOFS. The statements of the family of spec/44_stack.md: what Push and Pop do on each of their paths, that a Pop
undoes a Push, and how many pushes a stack takes. -/

namespace Sys2Proof.Machine

/-! ## The frame of a push -/

/-- Every register name and flag, `pc` and what `SameFixed` names are as before: only memory and `sp` may differ. -/
def OnlyStack (s t : State) : Prop := SameRegs s t ∧ SameFlags s t ∧ t.pc = s.pc ∧ SameFixed s t

theorem OnlyStack.refl (s : State) : OnlyStack s s := ⟨fun _ => rfl, rfl, rfl, rfl, rfl, rfl⟩

theorem OnlyStack.trans {s t u : State} (h : OnlyStack s t) (h' : OnlyStack t u) : OnlyStack s u := by
  obtain ⟨hregs, hflags, hpc, hbase, hsize, hhalt⟩ := h
  obtain ⟨hregs', hflags', hpc', hbase', hsize', hhalt'⟩ := h'
  exact ⟨fun q => (hregs' q).trans (hregs q), hflags'.trans hflags, hpc'.trans hpc, hbase'.trans hbase,
    hsize'.trans hsize, hhalt'.trans hhalt⟩

/-- An operand resolves through the registers alone (10_state.md R16). -/
theorem SameRegs.resolve_eq {s t : State} (h : SameRegs s t) (a : Operand) : t.resolve a = s.resolve a := by
  cases a with
  | constant k => rfl
  | register r => exact h r

/-! ## The paths of Push and Pop (44_stack.md R120, R121) -/

/-- Push on a stack that is not full, in bounds: the operand's pattern is stored at `sp`. -/
theorem exec_push_spec (a : Operand) {s : State} (hf : s.sp - s.sbase ≠ s.ssize) (hb : s.sp.toNat + 2 ≤ s.mem.size) :
    ∃ t, exec (.push a) s = .next t ∧ t.sp = s.sp + 2 ∧ t.mem = s.mem.setWord s.sp.toNat (u16 (s.resolve a)) ∧
      OnlyStack s t :=
  have hregs := fun q => (State.setSp_readReg _ _ q).trans (s.setMem_readReg _ q)
  ⟨_, exec_push_of_ok (s.pushValue_ok _ hf hb), rfl, rfl, hregs, rfl, rfl, rfl, rfl, rfl⟩

/-- Pop on a stack that is not empty, in bounds, has the effect and the frame of the host's Pop (10_state.md R28). -/
theorem exec_pop_spec (r : Reg) {s : State} (he : s.sp ≠ s.sbase) (hb : (s.sp - 2).toNat + 2 ≤ s.mem.size) :
    ∃ t, exec (.pop r) s = .next t ∧ t.sp = s.sp - 2 ∧ t.readReg r = poppedValue r s.mem (s.sp - 2).toNat ∧
      SameRegsBut r s t ∧ SameFlags s t ∧ SameMemory s t ∧ t.pc = s.pc ∧ SameFixed s t := by
  have hp := s.popInto_ok r he hb
  obtain ⟨hpc, hfixed, heffect⟩ := hostEffect_pop hp
  rw [if_neg he] at heffect
  obtain ⟨hsp, hread, hregs, hflags, hmem⟩ := heffect
  exact ⟨_, exec_pop_of_ok hp, hsp, hread, hregs, hflags, hmem, hpc, hfixed⟩

/-- The frame of a stack fault. -/
theorem State.stackFault_spec (s : State) :
    s.stackFault.sp = 0 ∧ FlagSetIff .overflow True s s.stackFault ∧ SameRegs s s.stackFault ∧
      SameMemory s s.stackFault ∧ s.stackFault.pc = s.pc ∧ SameFixed s s.stackFault :=
  have ⟨hsp, hflags, hregs, hmem⟩ := stackFaulted_stackFault s
  ⟨hsp, hflags, hregs, hmem, rfl, rfl, rfl, rfl⟩

/-- The two bytes where a pattern was stored make that pattern (20_memory.md R45). -/
theorem Memory.bytesToWord_setWord {m : Memory} (hw : m.wf = true) {a : Nat} (ha : a + 2 ≤ m.size) (p : Word) :
    bytesToWord ((m.setWord a p).byteAt a) ((m.setWord a p).byteAt (a + 1)) = p := by
  rw [Memory.byteAt_setWord_first hw, Memory.byteAt_setWord_second hw p (by omega), bytesToWord_hiByte_loByte]

theorem Word.toNat_add_two (w : Word) : (w + 2).toNat = (w.toNat + 2) % 65536 := BitVec.toNat_add w 2

/-- Settles O53: the two bytes stored make the operand's pattern. -/
theorem pushStores : Obligations.PushStores := by
  intro a s hw hf hb
  obtain ⟨t, ht, hsp, hmem, hregs, hflags, hpc, hfixed⟩ := exec_push_spec a hf hb
  refine ⟨t, ht, by rw [hsp, Word.toNat_add_two], ?_, ?_, hregs, hflags, hpc, hfixed⟩
  · rw [hmem, ← bytesToWord_toNat, Memory.bytesToWord_setWord hw hb]
  · simp only [SameMemoryBut, hmem]
    exact sameMemoryBut_setWord s _ _

/-- Settles O54: what `poppedValue` says a register holds after the pop is the statement's value at each width. -/
theorem popLoads : Obligations.PopLoads := fun r _ he hb => exec_pop_spec r he hb

/-- Settles O55: both full and empty take the one stack fault. -/
theorem stackFaultPaths : Obligations.StackFaultPaths :=
  fun s => ⟨fun hf _ => ⟨_, exec_push_of_ok (s.pushValue_full _ hf), s.stackFault_spec⟩,
    fun he r => ⟨_, exec_pop_of_ok (s.popInto_empty r he), s.stackFault_spec⟩⟩

/-- Settles O56: the access raises OutOfBounds before anything is written. -/
theorem stackOutOfBounds : Obligations.StackOutOfBounds :=
  fun s => ⟨fun hf hb _ => ⟨_, exec_push_of_error (s.pushValue_error _ hf hb), haltedAs_enterHalt s _⟩,
    fun he hb r => ⟨_, exec_pop_of_error (s.popInto_error r he hb), haltedAs_enterHalt s _⟩⟩

/-! ## Last in, first out (R122) -/

/-- Settles O57: `sp` comes back to where the word was stored, and the word is the operand's pattern. -/
theorem popAfterPush : Obligations.PopAfterPush := by
  intro a r s hw hr hf hbase hb
  obtain ⟨t, ht, hsp, hmem, hregs, hflags, _, htbase, _⟩ := exec_push_spec a hf hb
  have hback : t.sp - 2 = s.sp := by rw [hsp, BitVec.add_sub_cancel]
  obtain ⟨u, hu, husp, hread, huregs, huflags, _⟩ :=
    exec_pop_spec r (s := t) (by rwa [hsp, htbase]) (by rwa [hback, hmem, Memory.setWord_size])
  refine ⟨t, u, ht, hu, husp.trans hback, ?_, fun q hq => (huregs q hq).trans (hregs q), huflags.trans hflags⟩
  rw [hread, poppedValue_eq, hback, hmem, Memory.bytesToWord_setWord hw hb, hr, storedValue_s16,
    s16_u16_of_fits (s.fitsS16_resolve a)]

/-! ## The capacity of a stack (R122) -/

/-- A 16-bit read sees the size of memory and its two bytes (20_memory.md R33). -/
theorem Memory.read16_congr {m m' : Memory} {a : Nat} (hs : m'.size = m.size) (h0 : m'.byteAt a = m.byteAt a)
    (h1 : m'.byteAt (a + 1) = m.byteAt (a + 1)) : m'.read16 a = m.read16 a := by
  simp only [Memory.read16, Memory.inBounds, hs, h0, h1]

theorem pushAll_cons {a : Operand} {s t : State} (h : exec (.push a) s = .next t) (rest : List Operand) :
    pushAll (a :: rest) s = pushAll rest t := by
  simp only [pushAll, h]

/-- The values, as operands of `s`, stand as words of `m` from address `b` on. -/
def WordsAt (b : Nat) (values : List Operand) (s : State) (m : Memory) : Prop :=
  ∀ k a, values[k]? = some a → m.read16 (b + 2 * k) = .ok (u16 (s.resolve a))

/-- A word, and after it the words of the other values; with no others, `b` may be the last word below 65536. -/
theorem WordsAt.cons {b b' : Nat} {a : Operand} {rest : List Operand} {s t : State} {m : Memory}
    (h : WordsAt b' rest t m) (hregs : SameRegs s t) (hfirst : m.read16 b = .ok (u16 (s.resolve a)))
    (hb : 0 < rest.length → b' = b + 2) : WordsAt b (a :: rest) s m := by
  intro k c hk
  cases k with
  | zero =>
    obtain rfl : a = c := Option.some.inj hk
    exact hfirst
  | succ k =>
    rw [List.getElem?_cons_succ] at hk
    have ⟨hlt, _⟩ := List.getElem?_eq_some_iff.mp hk
    have haddr : b + 2 * (k + 1) = b' + 2 * k := by rw [hb (by omega)]; omega
    rw [haddr, h k c hk, hregs.resolve_eq]

/-- Pushes that fit between `sp` and the end of the stack, and of memory, all succeed. `sp` passes 65535 by the last push
only, so every word is stored where the integers put it. -/
theorem pushAll_spec : ∀ (values : List Operand) {s : State}, s.mem.wf = true → s.mem.size ≤ 65536 →
    s.sp.toNat + 2 * values.length ≤ s.mem.size → (s.sp - s.sbase).toNat + 2 * values.length ≤ s.ssize.toNat →
    ∃ t, pushAll values s = .next t ∧ t.sp.toNat = (s.sp.toNat + 2 * values.length) % 65536 ∧ OnlyStack s t ∧
      SameMemoryBut s.sp.toNat (2 * values.length) s t ∧ WordsAt s.sp.toNat values s t.mem := by
  intro values
  induction values with
  | nil =>
    intro s _ _ _ _
    exact ⟨s, rfl, (Nat.mod_eq_of_lt s.sp.isLt).symm, .refl s, ⟨rfl, fun _ _ => rfl⟩, nofun⟩
  | cons a rest ih =>
    intro s hw hsize hroom hfree
    rw [List.length_cons] at hroom hfree
    have hb : s.sp.toNat + 2 ≤ s.mem.size := by omega
    have hf : s.sp - s.sbase ≠ s.ssize := fun e => by rw [e] at hfree; omega
    obtain ⟨t, ht, hsp, hmem, hst⟩ := exec_push_spec a hf hb
    have ⟨hregs, _, _, htbase, htsize, _⟩ := hst
    have hspNat : t.sp.toNat = (s.sp.toNat + 2) % 65536 := by rw [hsp, Word.toNat_add_two]
    have hdist : t.sp - t.sbase = s.sp - s.sbase + 2 := by rw [hsp, htbase, BitVec.add_sub_comm]
    have hroom' : t.sp.toNat + 2 * rest.length ≤ t.mem.size := by rw [hmem, Memory.setWord_size]; omega
    have hfree' : (t.sp - t.sbase).toNat + 2 * rest.length ≤ t.ssize.toNat := by
      rw [hdist, htsize, Word.toNat_add_two]; omega
    obtain ⟨u, hu, husp, htu, ⟨husize, hubytes⟩, hwords⟩ :=
      ih (by rw [hmem]; exact Memory.wf_setWord hw _ hb) (by rwa [hmem]) hroom' hfree'
    rw [hmem] at husize hubytes
    refine ⟨u, (pushAll_cons ht rest).trans hu, by rw [husp, List.length_cons]; omega, hst.trans htu,
      ⟨husize, fun x hx => ?_⟩, hwords.cons hregs ?_ fun _ => by omega⟩
    · rw [List.length_cons] at hx
      rw [hubytes x (by omega), Memory.byteAt_setWord_other _ _ (by omega)]
    · rw [Memory.read16_congr husize (hubytes _ (by omega)) (hubytes _ (by omega))]
      exact Memory.read16_setWord hw hb _

/-- Settles O58: from an empty stack all the room is free, and N/2 pushes leave `sp` at the end of it. -/
theorem stackCapacity : Obligations.StackCapacity := by
  intro s values hw hg he hfit
  have hroom := hg.fits
  obtain ⟨t, ht, hsp, ⟨hregs, hflags, hpc, hfixed⟩, hbytes, hwords⟩ :=
    pushAll_spec values hw hg.small (by rw [he]; omega) (by rw [he, BitVec.sub_self, BitVec.toNat_zero]; omega)
  rw [he] at hsp hbytes hwords
  refine ⟨t, ht, hsp, hflags, hregs, hpc, hfixed, hbytes, hwords, fun hall a => ?_⟩
  obtain ⟨htbase, htsize, _⟩ := hfixed
  have hend : t.sp = s.sbase + s.ssize := BitVec.eq_of_toNat_eq (by rw [hsp, hall, BitVec.toNat_add])
  have hfull : t.sp - t.sbase = t.ssize := by rw [hend, htbase, htsize, BitVec.add_comm, BitVec.add_sub_cancel]
  exact ⟨_, exec_push_of_ok (t.pushValue_full _ hfull), rfl, (t.stackFault_flags.flag_iff _).mpr (.inr ⟨rfl, trivial⟩)⟩

end Sys2Proof.Machine
end

section
/-! PROOFS. The statements of the family of spec/60_exceptions.md: when a step answers a next state, what a decode error
and a fatal fault leave, and which halts are normal ends. -/

namespace Sys2Proof.Machine

/-! ## A fatal fault (60_exceptions.md R135, R137) -/

/-- The one form of effect that changes the halted state is a fatal fault, and it changes nothing else. -/
theorem Effect.fatal_of_halt_ne {s t : State} {i : Instr} (h : Effect s i t) (hh : t.halt ≠ s.halt) :
    ∃ f, t = s.enterHalt (.fatal f) ∧ ((∃ a b, i = .load a b) ∨ (∃ a, i = .push a) ∨ ∃ r, i = .pop r) := by
  cases h with
  | halt i f hi => exact ⟨f, rfl, hi⟩
  | _ => simp at hh

/-- Settles O33: a decode error is no fatal fault, and of the effects of an instruction only a fatal fault halts; it
leaves the advanced machine as it was. -/
theorem fatalFaultWritesNothing : Obligations.FatalFaultWritesNothing := by
  intro s t f hh hstep hf
  obtain ⟨_, ⟨i, n, hd, _, he⟩ | ⟨e, _, rfl⟩⟩ := step_cases hstep
  · have hne : t.halt ≠ (s.advance n).halt := by simp [hf, hh]
    obtain ⟨g, rfl, hi⟩ := he.fatal_of_halt_ne hne
    obtain ⟨_, _, hsp, hbase, hsize, hregs, hflags, hmem⟩ := haltedAs_enterHalt (s.advance n) (.fatal g)
    exact ⟨i, n, hd, by simp, hsp, hbase, hsize, fun q => (hregs q).trans (s.advance_readReg n q), hflags, hmem, hi⟩
  · cases hf

/-! ## When a step is enabled (60_exceptions.md R133, R140) -/

/-- Settles O26: the branch of `step` on a decode error, and the frame of a halt. -/
theorem stepDecodeError : Obligations.StepDecodeError :=
  fun s _ hh hd => ⟨_, step_of_error hh hd, haltedAs_enterHalt s _⟩

/-- A machine that is not halted has a next state: a decode error halts it, and every instruction answers one. -/
theorem exists_step_next {s : State} (h : s.halt = none) : ∃ t, step s = .next t := by
  cases hd : decodeAt s.mem s.pc.toNat with
  | error e => exact ⟨_, step_of_error h hd⟩
  | ok p =>
    obtain ⟨t, ht, _⟩ := exec_effect p.1 (s.advance p.2)
    exact ⟨t, (step_of_ok h hd).trans ht⟩

/-- Settles O27: a halted machine has no step and answers its reason, any other has a next state. -/
theorem stepUntilHalted : Obligations.StepUntilHalted := by
  intro s
  cases hh : s.halt with
  | some r => simp [step_of_halted hh]
  | none =>
    obtain ⟨t, ht⟩ := exists_step_next hh
    simp [ht]

/-! ## The end of a run (60_exceptions.md R145) -/

theorem State.endedNormally_iff (s : State) :
    s.endedNormally = true ↔ ∃ a, s.halt = some (.decode (.unknownOpcode 0 a)) := by
  simp only [State.endedNormally]
  split
  case h_1 ob a hh => simp [hh]
  case h_2 hne => exact iff_of_false Bool.false_ne_true fun ⟨a, ha⟩ => hne 0 a ha

theorem State.wentWrong_iff (s : State) :
    s.wentWrong = true ↔ ∃ r, s.halt = some r ∧ ∀ a, r ≠ .decode (.unknownOpcode 0 a) := by
  rw [State.wentWrong, Bool.and_eq_true, Bool.not_eq_true', ← Bool.not_eq_true, s.endedNormally_iff]
  cases hh : s.halt <;> simp

/-- Settles O35: 0x00 names no instruction, so the decode at it fails with UnknownOpcode, and the step halts with that. -/
theorem zeroByteEndsNormally : Obligations.ZeroByteEndsNormally := by
  refine ⟨fun s => ⟨s.endedNormally_iff, s.wentWrong_iff⟩, fun s hh hpc hb => ?_⟩
  have hnone : Op.ofByte (s.mem.byteAt s.pc.toNat) = none := by rw [hb]; rfl
  have hd := decodeAt_of_no_opcode hpc hnone
  rw [hb] at hd
  exact ⟨_, step_of_error hh hd, (State.endedNormally_iff _).mpr ⟨_, rfl⟩, haltedAs_enterHalt s _⟩

end Sys2Proof.Machine
end

section
/-! PROOFS. The statement of the family of spec/70_reset_and_hazards.md: a comparison flag, once set, fixes its jump for
the rest of the run. -/

namespace Sys2Proof.Machine

/-- Along a run of any length a flag that was set stays set: `flagsSticky` (O29) at every step (10_state.md R18). -/
theorem run_flag_sticky {s t : State} {k : Nat} {f : Flag} (hrun : Host.Core.run Sys2Proof.core k s = .next t)
    (hf : s.flag f = true) : t.flag f = true := by
  obtain ⟨_, hstep⟩ := flagsSticky
  exact run_keeps (fun u v hu huv => hstep u v f huv hu) k s t hf hrun

/-! ## Each conditional jump on a flag that is set (43_compare_jump.md R113 to R116) -/

section SetFlag
variable {s : State}

theorem exec_jeq_of_equal (h : s.flag .equal = true) (a : Operand) :
    exec (.jeq a) s = .next (s.setPc (u16 (s.resolve a))) := by
  rw [exec, execJeq, h, s.jumpIf_true]

theorem exec_jne_of_equal (h : s.flag .equal = true) (a : Operand) : exec (.jne a) s = .next s := by
  rw [exec, execJne, h, Bool.not_true, s.jumpIf_false]

theorem exec_jgt_of_greaterThan (h : s.flag .greaterThan = true) (a : Operand) :
    exec (.jgt a) s = .next (s.setPc (u16 (s.resolve a))) := by
  rw [exec, execJgt, h, s.jumpIf_true]

theorem exec_jlt_of_lowerThan (h : s.flag .lowerThan = true) (a : Operand) :
    exec (.jlt a) s = .next (s.setPc (u16 (s.resolve a))) := by
  rw [exec, execJlt, h, s.jumpIf_true]

end SetFlag

/-- Settles O36: the flag is still set in the state the run reaches, and there it decides the jump. -/
theorem stickyFlagHazard : Obligations.StickyFlagHazard := by
  refine fun s t k hrun => ⟨fun hs a => ?equal, fun hs => ?greaterThan, fun hs => ?lowerThan⟩
  case equal =>
    have ht : t.flag .equal = true := run_flag_sticky hrun hs
    exact ⟨exec_jeq_of_equal ht a, exec_jne_of_equal ht a⟩
  case greaterThan => exact exec_jgt_of_greaterThan (run_flag_sticky hrun hs)
  case lowerThan => exact exec_jlt_of_lowerThan (run_flag_sticky hrun hs)

end Sys2Proof.Machine
end
